-- ==== Sys2Proof/Word.lean ====
section
/-! DEFINITION. The two bit-vector types of the engine: the 32-bit word of every host register (spec 00_scope.md R9)
and the 8-bit byte of the slot buffer (10_state.md R20). -/

namespace Sys2Proof

/-- A host register's contents (R9). -/
abbrev Word := BitVec 32

/-- One byte of the slot buffer (R20), or a byte operand (30_encoding.md R71). -/
abbrev Byte := BitVec 8

end Sys2Proof
end

