-- ==== Sys2Proof/Syntax.lean ====
section
/-! DEFINITION. The commands of BIX-1, one constructor per row of spec/opcode_table.json. -/

namespace Sys2Proof

/-- A command (30_encoding.md R72). The command word carries no operand (R70): operands stand in ARG0 and ARG1 (R71),
so no constructor has an argument. -/
inductive Instr where
  | reserve        -- 0x1, 42_allocate.md R110
  | remove         -- 0x2, 42_allocate.md R111
  | findOrd        -- 0x3, 43_search.md R130
  | findNext       -- 0x4, 43_search.md R131
  | count          -- 0x5, 41_query.md R100
  | capacity       -- 0x6, 41_query.md R101
  | popcnt8        -- 0x7, 40_popcount.md R90
  | set            -- 0x8, 45_reserved.md R170
  | addRange       -- 0x9, 45_reserved.md R171
  | readByte       -- 0xA, 44_persist.md R150
  | restoreBegin   -- 0xB, 44_persist.md R152
  | restoreByte    -- 0xC, 44_persist.md R153
  | restoreCommit  -- 0xD, 44_persist.md R154
deriving DecidableEq, Repr

end Sys2Proof
end

