-- ==== Sys2Proof/Decode.lean ====
section
/-! DEFINITION. Decoding and encoding of command words (spec 30_encoding.md R70 to R74, 20_memory.md R53). -/

namespace Sys2Proof

/-- Why a word is ILLEGAL_CMD (R73), or why bytes are no command word at all. -/
inductive Reject where
  /-- `w[31:4] != 0` (R73, first line). -/
  | reservedBits
  /-- OPCODE 0x0, 0xE or 0xF (R73, second line). -/
  | illegalOpcode
  /-- Not exactly the four bytes of one command word (R70: every command is exactly one word). -/
  | notOneWord
deriving DecidableEq, Repr

/-- What decoding answers: a command, or ILLEGAL_CMD with its cause. -/
inductive Decoded where
  | command (i : Instr)
  | illegal (why : Reject)
deriving DecidableEq, Repr

/-- The RZ field, bits 31:4 (R70). -/
def fieldRZ (w : Word) : BitVec 28 := w.extractLsb' 4 28

/-- The OPCODE field, bits 3:0 (R70). -/
def fieldOpcode (w : Word) : BitVec 4 := w.extractLsb' 0 4

/-- The opcode map by OPCODE value (R72). -/
def decodeOpcode (op : BitVec 4) : Decoded :=
  match op.toNat with
  | 0x1 => .command .reserve
  | 0x2 => .command .remove
  | 0x3 => .command .findOrd
  | 0x4 => .command .findNext
  | 0x5 => .command .count
  | 0x6 => .command .capacity
  | 0x7 => .command .popcnt8
  | 0x8 => .command .set
  | 0x9 => .command .addRange
  | 0xA => .command .readByte
  | 0xB => .command .restoreBegin
  | 0xC => .command .restoreByte
  | 0xD => .command .restoreCommit
  | _ => .illegal .illegalOpcode

/-- Decoding of a command word, total on every word (R73). -/
def decode (w : Word) : Decoded :=
  if fieldRZ w = 0 then decodeOpcode (fieldOpcode w) else .illegal .reservedBits

/-- R53: the register word that four bytes at rising addresses hold, least significant byte first. -/
def wordOfBytes (b0 b1 b2 b3 : Byte) : Word := b3 ++ b2 ++ b1 ++ b0

/-- Decoding of a command word given as the bytes a byte-addressed bus shows (R53). -/
def decodeBytes : List Byte → Decoded
  | [b0, b1, b2, b3] => decode (wordOfBytes b0 b1 b2 b3)
  | _ => .illegal .notOneWord

/-- The instruction of a decoding, if there is one. -/
def Decoded.instr? : Decoded → Option Instr
  | .command i => some i
  | .illegal _ => none

/-- The bytes of a word in R53's order. -/
def bytesOfWord (w : Word) : List Byte :=
  [w.extractLsb' 0 8, w.extractLsb' 8 8, w.extractLsb' 16 8, w.extractLsb' 24 8]

/-- The OPCODE value of a command (R72). -/
def opcode : Instr → BitVec 4
  | .reserve => 0x1#4
  | .remove => 0x2#4
  | .findOrd => 0x3#4
  | .findNext => 0x4#4
  | .count => 0x5#4
  | .capacity => 0x6#4
  | .popcnt8 => 0x7#4
  | .set => 0x8#4
  | .addRange => 0x9#4
  | .readByte => 0xA#4
  | .restoreBegin => 0xB#4
  | .restoreByte => 0xC#4
  | .restoreCommit => 0xD#4

/-- The command word of a command: RZ zero, OPCODE in bits 3:0 (R70, R72). -/
def encode (i : Instr) : Word := (opcode i).setWidth 32

/-- The command word as the bytes a byte-addressed bus shows (R53). -/
def encodeBytes (i : Instr) : List Byte := bytesOfWord (encode i)

/-- The instruction the decoder reads from bits `w` numbered as spec/opcode_table.json numbers them. The table gives
every row 32 bits; bits at and above `nbits` are zero, and a value that needs more than 32 bits is no command word. -/
def decodeTableWord (nbits w : Nat) : Option Instr :=
  let v := w % 2 ^ nbits
  if v < 2 ^ 32 then (decodeBytes (bytesOfWord (BitVec.ofNat 32 v))).instr? else none

end Sys2Proof
end

