-- ==== Sys2Proof/Config.lean ====
section
/-! DEFINITION. What an implementation fixes (00_scope.md R8, R10), and the free values of the model. -/

namespace Sys2Proof

/-- The two open parameters of the engine (00_scope.md section 4). A state carries them as plain data that no step
changes, so a claim over every state is a claim over every configuration (notes/assumptions/3.md, 4.md). -/
structure Config where
  /-- `MAX_BYTES`: bytes of storage behind the slot buffer (R8). -/
  maxBytes : Nat
  /-- `BASE`: bus address of the 256-byte register window (R10). -/
  base : Nat
deriving DecidableEq, Repr

/-- R8's reference configuration, `MAX_BYTES = 512`. DESIGN CHOICE, unsafe: R10 leaves `BASE` open; it is 0 here
(notes/assumptions/4.md). -/
def Config.reference : Config := { maxBytes := 512, base := 0 }

/-- Free values: the `n`-th 32-bit word that the spec calls `any value` or `unspecified` (10_state.md R23, R43;
20_memory.md R55; 70_reset_and_hazards.md R205). It has no body, so no proof can rest on a value of it
(notes/assumptions/7.md). -/
opaque Config.freeWord : Nat → Word

end Sys2Proof
end

