-- ==== Sys2Proof/Machine/HostAccess.lean ====
section
/-! DEFINITION. The host's side of the register window: the nine registers and their offsets (10_state.md R28), bus
operations (20_memory.md R54), and the lines of a host program (30_encoding.md R75, R76). -/

namespace Sys2Proof

/-- The nine registers of the window (10_state.md R28). -/
inductive Reg where
  | cmd | arg0 | arg1 | result | status | count | capacity | cursor | param
deriving DecidableEq, Repr

/-- The byte offset of a register (10_state.md R28). -/
def Machine.regOffset : Reg → Nat
  | .cmd => 0x00
  | .arg0 => 0x04
  | .arg1 => 0x08
  | .result => 0x0C
  | .status => 0x10
  | .count => 0x14
  | .capacity => 0x18
  | .cursor => 0x1C
  | .param => 0x20

/-- The register at an offset of the window; `none` for a reserved offset (20_memory.md R56). -/
def Machine.regAt : Nat → Option Reg
  | 0x00 => some .cmd
  | 0x04 => some .arg0
  | 0x08 => some .arg1
  | 0x0C => some .result
  | 0x10 => some .status
  | 0x14 => some .count
  | 0x18 => some .capacity
  | 0x1C => some .cursor
  | 0x20 => some .param
  | _ => none

/-- The width of a bus access (20_memory.md R54). Only 32 bits is part of the interface. -/
inductive Width where
  | w8 | w16 | w32 | w64
deriving DecidableEq, Repr

/-- One operation of the host on the bus. `poll` is R75's loop of STATUS reads that ends on the first read with
bit 0 = 0. The written value of a refused width is immaterial, so 32 bits are enough. -/
inductive BusOp where
  | write (width : Width) (addr : Nat) (value : Word)
  | read (width : Width) (addr : Nat)
  | poll
deriving DecidableEq, Repr

/-- One line of a host program (30_encoding.md R75). -/
inductive AsmOp where
  | wr (reg : Reg) (value : Word)
  | rd (reg : Reg)
  | poll
deriving DecidableEq, Repr

/-- The pseudo-instructions (30_encoding.md R76). -/
inductive Pseudo where
  | reserve
  | remove (i : Word)
  | findOrd (k : Word)
  | findNext (s : Word)
  | count
  | capacity
  | popcnt8 (v : Word)
  | set
  | addRange
  | readByte (b : Word)
  | restoreBegin
  | restoreByte (v : Word)
  | restoreCommit (c n : Word)
deriving DecidableEq, Repr

end Sys2Proof
end

