-- ==== Sys2Proof/Machine/State.lean ====
section
/-! DEFINITION. The state of the engine and its host (spec 10_state.md), the reasons a step can stop, and reset
(10_state.md R48). -/

namespace Sys2Proof.Machine

/-- The engine's mode (10_state.md R25). -/
inductive Mode where
  | normal
  | restoring
deriving DecidableEq, Repr

/-- The values STATUS.ERRCODE can hold (60_exceptions.md R185). The codes 0x8 to 0xF are never written (10_state.md
R40), so they have no constructor. -/
inductive ErrCode where
  | none
  | illegalCmd
  | unimplemented
  | badMode
  | indexRange
  | ordinalRange
  | full
  | restoreReject
deriving DecidableEq, Repr

/-- The fields of STATUS (10_state.md R33). Reserved bits have no storage: they read as 0. -/
structure Status where
  busy : Bool
  done : Bool
  err : Bool
  notFound : Bool
  restoring : Bool
  ovr : Bool
  errCode : ErrCode
deriving DecidableEq, Repr

/-- Storage of the slot buffer: listed bytes by address, in the canonical form of `Memory.wf`. -/
abbrev Memory := List Host.Cell

/-- Whose step comes next (00_scope.md R6, 70_reset_and_hazards.md R200). -/
inductive Turn where
  | host
  | engine
  | reset
deriving DecidableEq, Repr

/-- What one host read returned: the offset read and the word (20_memory.md R55). -/
structure ReadRecord where
  offset : Nat
  value : Word
deriving DecidableEq, Repr

/-- Reasons the machine stops with a fault. -/
inductive Fault where
  /-- RESERVE (42_allocate.md R110) with `count < cap` while every slot below `cap` is occupied: R110's scan would not
  end. Only a state that violates 10_state.md R45(b) gives it, and no run reaches one; safe (notes/assumptions/10.md). -/
  | noFreeSlot
  /-- FIND_ORD (43_search.md R130) with `ord < count` whose scan runs past the last byte: R130's 'not reached' line.
  Only a state that violates 10_state.md R45(b) gives it, and no run reaches one; safe (notes/assumptions/11.md). -/
  | ordinalNotFound
deriving DecidableEq, Repr

/-- Reasons a step has no meaning. -/
inductive Refusal where
  /-- An instruction without a meaning yet; raised by `exec` only. No arm raises it in this model. -/
  | notModelled (mnemonic : String)
  /-- The host's access has a width other than 32 bits, or an offset that is no multiple of 4. The spec asks for the
  refusal (20_memory.md R54); raised by the host's turn; safe. -/
  | accessShape
  /-- The host's access lies outside the register window, so no register of this engine answers it (20_memory.md R58);
  raised by the host's turn; safe (notes/assumptions/13.md). -/
  | outsideWindow
deriving DecidableEq, Repr

/-- The whole state. The first group is the spec's (INVENTORY.md, 'State'); the last four fields are the model's own. -/
structure State where
  /-- MAX_BYTES and BASE (00_scope.md R8, R10); no step changes it. -/
  config : Config
  /-- `L`, the slot-buffer length in bytes (R20). -/
  len : Nat
  /-- The bytes `buf[0..L-1]` (R20, R21). -/
  buf : Memory
  /-- The cursor (R23). While the spec calls it unspecified it holds a free value. -/
  cursor : Nat
  /-- The occupied count (R24). -/
  count : Nat
  /-- NORMAL or RESTORING (R25). -/
  mode : Mode
  /-- The latched command word (R26). -/
  cmdw : Word
  /-- ARG0 (R30). -/
  arg0 : Word
  /-- ARG1 (R31). -/
  arg1 : Word
  /-- RESULT (R32). -/
  result : Word
  /-- STATUS (R33). -/
  status : Status
  /-- Model's own: the index of the next free value (notes/assumptions/7.md). -/
  draws : Nat
  /-- Model's own: the bus operations the host has still to issue (R6, R59; notes/assumptions/1.md). -/
  host : List BusOp
  /-- Model's own: the order of the coming steps (R210; notes/assumptions/1.md). -/
  turns : List Turn
  /-- Model's own: what the host's reads returned, oldest first (notes/assumptions/15.md). -/
  reads : List ReadRecord
deriving DecidableEq, Repr

/-- STATUS after reset: 0x00000000 (R48). -/
def Status.reset : Status :=
  { busy := false, done := false, err := false, notFound := false, restoring := false, ovr := false, errCode := .none }

/-- The engine right after reset in a given configuration (R48). `cursor` and `cmdw` are unspecified there: 0 is a
DESIGN CHOICE (notes/assumptions/5.md, 6.md). -/
def State.resetOf (c : Config) : State :=
  { config := c
    len := 0
    buf := []
    cursor := 0
    count := 0
    mode := .normal
    cmdw := 0
    arg0 := 0
    arg1 := 0
    result := 0
    status := Status.reset
    draws := 0
    host := []
    turns := []
    reads := [] }

/-- The machine right after reset (R48) in the reference configuration (00_scope.md R8). -/
def State.reset : State := State.resetOf Config.reference

end Sys2Proof.Machine
end

