-- ==== Sys2Proof/Machine/Flags.lean ====
section
/-! DEFINITION. STATUS: the word its fields make (10_state.md R33, 60_exceptions.md R185), what acceptance and the two
completions write (60_exceptions.md R181, R183, R184), and the view of a pending command (70_reset_and_hazards.md
R205). -/

namespace Sys2Proof.Machine

/-- The 4-bit code of an error (60_exceptions.md R185). -/
def errBits : ErrCode → BitVec 4
  | .none => 0x0#4
  | .illegalCmd => 0x1#4
  | .unimplemented => 0x2#4
  | .badMode => 0x3#4
  | .indexRange => 0x4#4
  | .ordinalRange => 0x5#4
  | .full => 0x6#4
  | .restoreReject => 0x7#4

/-- The STATUS word from the values of its fields; bits 7:6 and 31:12 are 0 (10_state.md R33). -/
def statusWord (busy done err notFound restoring ovr : Bool) (code : BitVec 4) : Word :=
  0#20 ++ code ++ 0#2 ++ BitVec.ofBool ovr ++ BitVec.ofBool restoring ++ BitVec.ofBool notFound ++ BitVec.ofBool err ++
    BitVec.ofBool done ++ BitVec.ofBool busy

/-- STATUS as read while no command is pending (R33). -/
def Status.word (st : Status) : Word :=
  statusWord st.busy st.done st.err st.notFound st.restoring st.ovr (errBits st.errCode)

/-- STATUS as read while a command is pending (R205): BUSY and OVR exact, the other fields from the draw `d`
(notes/assumptions/22.md). -/
def Status.busyWord (st : Status) (d : Word) : Word :=
  statusWord st.busy (d.getLsbD 1) (d.getLsbD 2) (d.getLsbD 3) (d.getLsbD 4) st.ovr (d.extractLsb' 8 4)

/-- STATUS after a command is accepted (R181): OVR and RESTORING kept. -/
def Status.accepted (st : Status) : Status :=
  { st with busy := true, done := false, err := false, notFound := false, errCode := .none }

/-- STATUS after a success completion in mode `m` (R183); `notFound` is FIND_NEXT's flag, 0 for every other command. -/
def Status.success (st : Status) (m : Mode) (notFound : Bool) : Status :=
  { st with
    busy := false, done := true, err := false, notFound := notFound, restoring := decide (m = .restoring),
    errCode := .none }

/-- STATUS after an error completion with `code` in mode `m` (R184). -/
def Status.failure (st : Status) (m : Mode) (code : ErrCode) : Status :=
  { st with
    busy := false, done := true, err := true, notFound := false, restoring := decide (m = .restoring), errCode := code }

end Sys2Proof.Machine
end

