-- ==== Sys2Proof/Machine/Memory.lean ====
section
/-! DEFINITION. Storage of the slot buffer as canonical cells (10_state.md R20; notes/assumptions/9.md). -/

namespace Sys2Proof.Machine

/-- What an unlisted byte below `L` reads as. Every byte below `L` has been written by `BufAppend`; the canonical form
keeps a byte that holds 0x00 unlisted (notes/assumptions/9.md). -/
def unlistedByte : Byte := 0

/-- Reading one byte of storage. -/
def memRead : Memory → Nat → Byte
  | [], _ => unlistedByte
  | (b, w) :: rest, a => if a = b then w else memRead rest a

/-- Writing one byte of storage: the cell is inserted in address order, replaced, or removed where the value is the
unlisted one. -/
def memWrite : Memory → Nat → Byte → Memory
  | [], a, v => if v = unlistedByte then [] else [(a, v)]
  | (b, w) :: rest, a, v =>
    if a < b then (if v = unlistedByte then (b, w) :: rest else (a, v) :: (b, w) :: rest)
    else if a = b then (if v = unlistedByte then rest else (a, v) :: rest)
    else (b, w) :: memWrite rest a v

/-- The canonical form: addresses strictly rising, no listed byte with the unlisted value. -/
def Memory.wf : Memory → Bool
  | [] => true
  | (a, v) :: rest => decide (v ≠ unlistedByte) && rest.all (fun c => decide (a < c.1)) && Memory.wf rest

end Sys2Proof.Machine
end

