-- ==== Sys2Proof/Machine/Operands.lean ====
section
/-! DEFINITION. The operand forms of 30_encoding.md R71 and the widening of 00_scope.md R12. -/

namespace Sys2Proof.Machine

/-- `zext_32(v)` (00_scope.md R12). Every value a command computes fits in 32 bits (R15). -/
def zext32 (n : Nat) : Word := BitVec.ofNat 32 n

/-- All 32 bits of ARG0, unsigned and untruncated (R71): a slot index, ordinal, byte index or saved cursor. -/
def State.argIndex (s : State) : Nat := s.arg0.toNat

/-- ARG0[7:0]; bits 31:8 are ignored (R71): a byte value. -/
def State.argByte (s : State) : Byte := s.arg0.extractLsb' 0 8

/-- All 32 bits of ARG1, the saved count (R71). -/
def State.argSavedCount (s : State) : Nat := s.arg1.toNat

end Sys2Proof.Machine
end

