-- ==== Sys2Proof/Machine/Popcount.lean ====
section
/-! DEFINITION. The popcount ROM (10_state.md R27, 40_popcount.md R91) and the derived functions on one byte
(00_scope.md R14). -/

namespace Sys2Proof.Machine

/-- R91's listing: row `h` holds the entries of 0xh0 to 0xhF. Read-only: no step can change it (R92). -/
def popcntRom : List (List Nat) :=
  [[0, 1, 1, 2, 1, 2, 2, 3, 1, 2, 2, 3, 2, 3, 3, 4],
   [1, 2, 2, 3, 2, 3, 3, 4, 2, 3, 3, 4, 3, 4, 4, 5],
   [1, 2, 2, 3, 2, 3, 3, 4, 2, 3, 3, 4, 3, 4, 4, 5],
   [2, 3, 3, 4, 3, 4, 4, 5, 3, 4, 4, 5, 4, 5, 5, 6],
   [1, 2, 2, 3, 2, 3, 3, 4, 2, 3, 3, 4, 3, 4, 4, 5],
   [2, 3, 3, 4, 3, 4, 4, 5, 3, 4, 4, 5, 4, 5, 5, 6],
   [2, 3, 3, 4, 3, 4, 4, 5, 3, 4, 4, 5, 4, 5, 5, 6],
   [3, 4, 4, 5, 4, 5, 5, 6, 4, 5, 5, 6, 5, 6, 6, 7],
   [1, 2, 2, 3, 2, 3, 3, 4, 2, 3, 3, 4, 3, 4, 4, 5],
   [2, 3, 3, 4, 3, 4, 4, 5, 3, 4, 4, 5, 4, 5, 5, 6],
   [2, 3, 3, 4, 3, 4, 4, 5, 3, 4, 4, 5, 4, 5, 5, 6],
   [3, 4, 4, 5, 4, 5, 5, 6, 4, 5, 5, 6, 5, 6, 6, 7],
   [2, 3, 3, 4, 3, 4, 4, 5, 3, 4, 4, 5, 4, 5, 5, 6],
   [3, 4, 4, 5, 4, 5, 5, 6, 4, 5, 5, 6, 5, 6, 6, 7],
   [3, 4, 4, 5, 4, 5, 5, 6, 4, 5, 5, 6, 5, 6, 6, 7],
   [4, 5, 5, 6, 5, 6, 6, 7, 5, 6, 6, 7, 6, 7, 7, 8]]

/-- `POPCNT[v]`, the ROM read: a 4-bit entry (R27). -/
def popcnt (v : Byte) : BitVec 4 :=
  BitVec.ofNat 4 ((popcntRom.getD (v.toNat / 16) []).getD (v.toNat % 16) 0)

/-- `popcount8(v)`: the number of `b` in 0..7 with `v[b] = 1` (R14). -/
def popcount8 (v : Byte) : Nat := (List.range 8).countP fun b => v.getLsbD b

/-- `lzs8(v)`, leading zero slots: the least `b` with `v[b] = 1`, or 8 (R14). -/
def lzs8 (v : Byte) : Nat := ((List.range 8).find? fun b => v.getLsbD b).getD 8

/-- `lfs8(v)`, leading full slots: the least `b` with `v[b] = 0`, or 8 (R14). -/
def lfs8 (v : Byte) : Nat := ((List.range 8).find? fun b => !v.getLsbD b).getD 8

end Sys2Proof.Machine
end

