-- ==== Sys2Proof/Machine/Ops.lean ====
section
/-! DEFINITION. The named operations over the buffer and the registers (00_scope.md R13, R14), command acceptance
(60_exceptions.md R181), the two completions (R183, R184; an error completion is this engine's exception), the mode
check (R187), and draws. -/

namespace Sys2Proof.Machine

/-- The capacity `cap = 8 * L` (10_state.md R22). -/
def State.cap (s : State) : Nat := 8 * s.len

/-- `MemRead(B, 1)` (00_scope.md R13); the commands use it for `B < L` only. -/
def State.memByte (s : State) (B : Nat) : Byte := memRead s.buf B

/-- `MemWrite(B, 1, v)` (R13); the commands use it for `B < L` only. -/
def State.writeByte (s : State) (B : Nat) (v : Byte) : State := { s with buf := memWrite s.buf B v }

/-- `BufAppend(v)` (R13); the commands use it for `L < MAX_BYTES` only. -/
def State.bufAppend (s : State) (v : Byte) : State := { s with buf := memWrite s.buf s.len v, len := s.len + 1 }

/-- The buffer as the sequence `buf[0], ..., buf[L-1]` (10_state.md R20). -/
def State.bytes (s : State) : List Byte := (List.range s.len).map s.memByte

/-- A byte with bit `b` set, the other 7 bits unchanged (R13). -/
def byteSet (v : Byte) (b : Nat) : Byte := v ||| (1#8 <<< b)

/-- A byte with bit `b` cleared, the other 7 bits unchanged (R13). -/
def byteClear (v : Byte) (b : Nat) : Byte := v &&& ~~~(1#8 <<< b)

/-- `slotbit(i)`: bit `i mod 8` of byte `i div 8` (R13, 10_state.md R21). -/
def State.slotbit (s : State) (i : Nat) : Bool := (s.memByte (i / 8)).getLsbD (i % 8)

/-- `setbit(i)` (R13). -/
def State.setbit (s : State) (i : Nat) : State := s.writeByte (i / 8) (byteSet (s.memByte (i / 8)) (i % 8))

/-- `clearbit(i)` (R13). -/
def State.clearbit (s : State) (i : Nat) : State := s.writeByte (i / 8) (byteClear (s.memByte (i / 8)) (i % 8))

/-- `rank(i)`: the number of occupied slots below `i` (00_scope.md R14). -/
def State.rank (s : State) (i : Nat) : Nat := (List.range i).countP s.slotbit

/-- `total`: the sum of `popcount8` over the buffer's bytes (00_scope.md R14). -/
def State.total (s : State) : Nat := (s.bytes.map popcount8).sum

/-- `RESULT <- zext_32(v)` (00_scope.md R13). -/
def State.setResult (s : State) (v : Nat) : State := { s with result := zext32 v }

/-- The next free value, and the state that has used it up (20_memory.md R55). -/
def State.draw (s : State) : Word × State := (Config.freeWord s.draws, { s with draws := s.draws + 1 })

/-- `cursor <- unspecified` (10_state.md R23): a fresh free value (notes/assumptions/8.md). -/
def State.forgetCursor (s : State) : State :=
  { s with cursor := (Config.freeWord s.draws).toNat, draws := s.draws + 1 }

/-- The empty structure in mode `m` (44_persist.md R152, R154): `L` and `count` 0, cursor unspecified. -/
def State.discard (s : State) (m : Mode) : State :=
  ({ s with len := 0, buf := [], count := 0, mode := m } : State).forgetCursor

/-- Command acceptance (60_exceptions.md R181). -/
def State.accept (s : State) (w : Word) : State := { s with cmdw := w, status := s.status.accepted }

/-- What the engine step is about to perform: the decoding of the latched word (60_exceptions.md R182, first line). -/
def State.fetch (s : State) : Decoded := decode s.cmdw

/-- Success completion (60_exceptions.md R183). -/
def State.complete (s : State) (notFound : Bool) : State := { s with status := s.status.success s.mode notFound }

/-- Error completion, `raise Error(code)` (60_exceptions.md R184): state writes made before it are kept. -/
def State.raise (s : State) (code : ErrCode) : State := { s with status := s.status.failure s.mode code }

/-- A command that only `m` allows, `k` its effect; in the other mode it raises BAD_MODE (60_exceptions.md R182,
R187). -/
def State.onlyIn (s : State) (m : Mode) (k : Host.Outcome State Fault Refusal) : Host.Outcome State Fault Refusal :=
  if s.mode = m then k else .next (s.raise .badMode)

/-- A value-producing command's success: RESULT written, then the completion (10_state.md R32, 60_exceptions.md
R183). -/
def State.answer (s : State) (v : Nat) : State := (s.setResult v).complete false

end Sys2Proof.Machine
end

