-- ==== Sys2Proof/WellFormed.lean ====
section
/-! DEFINITION. What the spec asks of a term before the engine sees it: the range of the parameters (00_scope.md R8,
R10) and the shape of a bus access (20_memory.md R54). -/

namespace Sys2Proof

/-- R8: `1 <= MAX_BYTES <= 2^28`; R10: `BASE` is a multiple of 256. -/
def Config.wf (c : Config) : Bool :=
  decide (1 ≤ c.maxBytes) && decide (c.maxBytes ≤ 2 ^ 28) && decide (c.base % 256 = 0)

/-- Every command is well formed: it carries no operand that could be out of range (30_encoding.md R70). -/
def Instr.wf : Instr → Bool
  | .reserve | .remove | .findOrd | .findNext | .count | .capacity | .popcnt8 | .set | .addRange | .readByte
  | .restoreBegin | .restoreByte | .restoreCommit => true

/-- An address lies in the register window (10_state.md R28). -/
def Config.inWindow (c : Config) (addr : Nat) : Bool :=
  decide (c.base ≤ addr) && decide (addr < c.base + 256)

/-- R54: a 32-bit access at an offset of the window that is a multiple of 4. -/
def Config.accessOk (c : Config) (w : Width) (addr : Nat) : Bool :=
  c.inWindow addr && decide (w = .w32) && decide ((addr - c.base) % 4 = 0)

/-- A bus operation the interface admits (20_memory.md R54, 30_encoding.md R75). -/
def BusOp.wf (c : Config) : BusOp → Bool
  | .write w addr _ => c.accessOk w addr
  | .read w addr => c.accessOk w addr
  | .poll => true

end Sys2Proof
end

