-- ==== Sys2Proof/Machine/Bus.lean ====
section
/-! DEFINITION. The host's accesses to the register window (10_state.md R28 to R44, 20_memory.md R53 to R57,
70_reset_and_hazards.md R204, R205), the host's turn, and reset (R200). -/

namespace Sys2Proof.Machine

/-- Whether CURSOR reads as a draw (10_state.md R43): cap = 0, RESTORING mode, or a command pending. -/
def State.cursorHidden (s : State) : Bool :=
  decide (s.cap = 0) || decide (s.mode = .restoring) || s.status.busy

/-- A value, or a fresh draw where the spec says any value is read (20_memory.md R55). -/
def State.valueOrDraw (s : State) (hidden : Bool) (v : Word) : Word × State := if hidden then s.draw else (v, s)

/-- A read of a register (10_state.md R29 to R33, R41 to R44), with R205's draws while a command is pending. It
changes nothing but the draw counter (20_memory.md R57). -/
def State.readReg (s : State) : Reg → Word × State
  | .cmd => (0, s)
  | .arg0 => (s.arg0, s)
  | .arg1 => (s.arg1, s)
  | .result => s.valueOrDraw s.status.busy s.result
  | .status => if s.status.busy then (s.status.busyWord s.draw.1, s.draw.2) else (s.status.word, s)
  | .count => s.valueOrDraw s.status.busy (zext32 s.count)
  | .capacity => s.valueOrDraw s.status.busy (zext32 s.cap)
  | .cursor => s.valueOrDraw s.cursorHidden (zext32 s.cursor)
  | .param => (zext32 s.config.maxBytes, s)

/-- A read at an offset of the window; a reserved offset reads 0 (20_memory.md R56). -/
def State.readOffset (s : State) (off : Nat) : Word × State :=
  match regAt off with
  | some r => s.readReg r
  | none => (0, s)

/-- A write dropped because a command is pending (70_reset_and_hazards.md R204): OVR is set. -/
def State.overrun (s : State) : State := { s with status := { s.status with ovr := true } }

/-- A STATUS write (10_state.md R33): bit 5 = 1 clears OVR; every other bit is ignored. -/
def State.writeStatus (s : State) (v : Word) : State :=
  if v.getLsbD 5 then { s with status := { s.status with ovr := false } } else s

/-- A write of a register (10_state.md R29 to R33, 20_memory.md R56, R57). -/
def State.writeReg (s : State) (v : Word) : Reg → State
  | .cmd => if s.status.busy then s.overrun else s.accept v
  | .arg0 => if s.status.busy then s.overrun else { s with arg0 := v }
  | .arg1 => if s.status.busy then s.overrun else { s with arg1 := v }
  | .status => s.writeStatus v
  | .result | .count | .capacity | .cursor | .param => s

/-- A write at an offset of the window; a reserved offset ignores it (20_memory.md R56). -/
def State.writeOffset (s : State) (off : Nat) (v : Word) : State :=
  match regAt off with
  | some r => s.writeReg v r
  | none => s

/-- The offset of an access, or why it is refused: an address outside the window (20_memory.md R58), another width or
a misaligned offset (R54). -/
def accessOffset (c : Config) (w : Width) (addr : Nat) : Except Refusal Nat :=
  if c.inWindow addr then
    if c.accessOk w addr then .ok (addr - c.base) else .error .accessShape
  else .error .outsideWindow

/-- A read as the host sees it: the value goes into the host's record. -/
def State.recordRead (s : State) (off : Nat) : State :=
  let (v, t) := s.readOffset off
  { t with reads := t.reads ++ [{ offset := off, value := v }] }

/-- One pass of R75's `poll`: a STATUS read that ends the loop if its bit 0 is 0. `s` has the loop still at the head of
`host`; `rest` is what follows it. -/
def State.pollOnce (s : State) (rest : List BusOp) : State :=
  let t := s.recordRead (regOffset .status)
  if (s.readReg .status).1.getLsbD 0 then t else { t with host := rest }

/-- The host's turn (20_memory.md R59): its next bus operation; a host with none left does nothing. -/
def State.hostTurn (s : State) : Host.Outcome State Fault Refusal :=
  match s.host with
  | [] => .next s
  | .write w addr v :: rest =>
    match accessOffset s.config w addr with
    | .ok off => .next ({ s with host := rest }.writeOffset off v)
    | .error r => .refused r
  | .read w addr :: rest =>
    match accessOffset s.config w addr with
    | .ok off => .next ({ s with host := rest }.recordRead off)
    | .error r => .refused r
  | .poll :: rest => .next (s.pollOnce rest)

/-- Reset asserted (70_reset_and_hazards.md R200): the engine takes its reset state; what is outside the engine, and
the draw counter, stay (notes/assumptions/21.md). -/
def State.assertReset (s : State) : State :=
  { State.resetOf s.config with draws := s.draws, host := s.host, turns := s.turns, reads := s.reads }

/-- Whose step is next, and the state with that turn taken from the schedule. With no schedule left the engine takes
its step if it has one, else the host moves: an enabled engine step is always taken in the end (00_scope.md R11,
60_exceptions.md R182; notes/assumptions/1.md). -/
def State.takeTurn (s : State) : Turn × State :=
  match s.turns with
  | [] => (if s.status.busy then .engine else .host, s)
  | t :: rest => (t, { s with turns := rest })

end Sys2Proof.Machine
end

