-- ==== Sys2Proof/Machine/Allocate.lean ====
section
/-! DEFINITION. RESERVE and REMOVE (42_allocate.md R110, R111). -/

namespace Sys2Proof.Machine

/-- R110's scan: the first slot `(cursor + k) mod cap`, `k = 0, 1, ..., cap - 1`, whose bit is 0. -/
def State.freeSlot (s : State) : Option Nat :=
  ((List.range s.cap).map fun k => (s.cursor + k) % s.cap).find? fun i => !s.slotbit i

/-- R110's growth path: the new byte 0x01, whose lowest bit is the slot allocated. -/
def State.grow (s : State) : State :=
  let t := s.bufAppend 0x01#8
  { t with cursor := s.cap + 1, count := s.count + 1 }.answer s.cap

/-- R110's allocation of the free slot `i` below `cap`. -/
def State.allocate (s : State) (i : Nat) : State :=
  let t := s.setbit i
  { t with count := s.count + 1, cursor := (i + 1) % s.cap }.answer i

/-- RESERVE (R110): allocate the next free slot, growing a full buffer by one byte. -/
def execReserve (s : State) : Host.Outcome State Fault Refusal :=
  s.onlyIn .normal <|
    if s.count = s.cap then
      if s.len = s.config.maxBytes then .next (s.raise .full) else .next s.grow
    else
      match s.freeSlot with
      | some i => .next (s.allocate i)
      | none => .fault .noFreeSlot

/-- REMOVE (R111): free the slot in ARG0; a free slot is left as it is. Cursor, `L` and RESULT are unchanged. -/
def execRemove (s : State) : Host.Outcome State Fault Refusal :=
  s.onlyIn .normal <|
    if s.cap ≤ s.argIndex then .next (s.raise .indexRange)
    else if s.slotbit s.argIndex then
      let t := s.clearbit s.argIndex
      .next ({ t with count := s.count - 1 }.complete false)
    else .next (s.complete false)

end Sys2Proof.Machine
end

