-- ==== Sys2Proof/Machine/Persist.lean ====
section
/-! DEFINITION. READ_BYTE, RESTORE_BEGIN, RESTORE_BYTE and RESTORE_COMMIT (44_persist.md R150, R152 to R154). -/

namespace Sys2Proof.Machine

/-- READ_BYTE (R150): RESULT is byte ARG0 of the buffer; it runs in both modes. -/
def execReadByte (s : State) : Host.Outcome State Fault Refusal :=
  if s.len ≤ s.argIndex then .next (s.raise .indexRange) else .next (s.answer (s.memByte s.argIndex).toNat)

/-- RESTORE_BEGIN (R152): discard the structure and enter RESTORING; it runs in both modes. -/
def execRestoreBegin (s : State) : Host.Outcome State Fault Refusal :=
  .next ((s.discard .restoring).complete false)

/-- RESTORE_BYTE (R153): append ARG0[7:0] and add its ROM popcount to the count. -/
def execRestoreByte (s : State) : Host.Outcome State Fault Refusal :=
  s.onlyIn .restoring <|
    if s.len = s.config.maxBytes then .next (s.raise .full)
    else
      let t := s.bufAppend s.argByte
      .next ({ t with count := s.count + (popcnt s.argByte).toNat }.complete false)

/-- R154's condition for rejecting the payload: the saved count is not the popcount sum, or the saved cursor is not
below a non-zero capacity. -/
def State.rejects (s : State) : Bool :=
  decide (s.argSavedCount ≠ s.count) || (decide (0 < s.cap) && decide (s.cap ≤ s.argIndex))

/-- R154's acceptance: back to NORMAL, the cursor restored where the capacity is not zero and unspecified else. -/
def State.adopt (s : State) : State :=
  let t := { s with mode := Mode.normal }
  if 0 < s.cap then { t with cursor := s.argIndex } else t.forgetCursor

/-- RESTORE_COMMIT (R154): check the payload against ARG0 and ARG1; a rejection leaves the empty NORMAL structure. -/
def execRestoreCommit (s : State) : Host.Outcome State Fault Refusal :=
  s.onlyIn .restoring <|
    if s.rejects then .next ((s.discard .normal).raise .restoreReject) else .next (s.adopt.complete false)

end Sys2Proof.Machine
end

