-- ==== Sys2Proof/Machine/Query.lean ====
section
/-! DEFINITION. POPCNT8 (40_popcount.md R90), COUNT and CAPACITY (41_query.md R100, R101). Each runs in both modes
(60_exceptions.md R187). -/

namespace Sys2Proof.Machine

/-- POPCNT8: RESULT is the ROM entry of ARG0[7:0] (R90). -/
def execPopcnt8 (s : State) : Host.Outcome State Fault Refusal :=
  .next (s.answer (popcnt s.argByte).toNat)

/-- COUNT: RESULT is the occupied count (R100). -/
def execCount (s : State) : Host.Outcome State Fault Refusal :=
  .next (s.answer s.count)

/-- CAPACITY: RESULT is `8 * L` (R101). -/
def execCapacity (s : State) : Host.Outcome State Fault Refusal :=
  .next (s.answer s.cap)

end Sys2Proof.Machine
end

