-- ==== Sys2Proof/Machine/Reserved.lean ====
section
/-! DEFINITION. SET and ADD_RANGE (45_reserved.md R170, R171): reserved commands whose whole effect is the error
completion UNIMPLEMENTED, in either mode, ahead of any mode check (60_exceptions.md R186); and words that are no
command (30_encoding.md R73). -/

namespace Sys2Proof.Machine

/-- SET (R170). -/
def execSet (s : State) : Host.Outcome State Fault Refusal := .next (s.raise .unimplemented)

/-- ADD_RANGE (R171). -/
def execAddRange (s : State) : Host.Outcome State Fault Refusal := .next (s.raise .unimplemented)

/-- A word that decodes to ILLEGAL_CMD (30_encoding.md R73): the error completion and nothing else. -/
def execIllegal (s : State) : Host.Outcome State Fault Refusal := .next (s.raise .illegalCmd)

end Sys2Proof.Machine
end

