-- ==== Sys2Proof/Machine/Search.lean ====
section
/-! DEFINITION. FIND_ORD and FIND_NEXT (43_search.md R130, R131). -/

namespace Sys2Proof.Machine

/-- R130's inner loop over the bits `bs` of byte `v`: the bit whose 1 is the `ord`-th, `acc` ones having been passed. -/
def bitOfOrdinal (v : Byte) (ord : Nat) : (acc : Nat) → (bs : List Nat) → Option Nat
  | _, [] => none
  | acc, b :: bs =>
    if v.getLsbD b then (if acc = ord then some b else bitOfOrdinal v ord (acc + 1) bs)
    else bitOfOrdinal v ord acc bs

/-- R130's outer loop from byte `B` on: a byte whose popcount does not reach past `ord` is skipped whole. -/
def slotOfOrdinal (ord : Nat) : (B acc : Nat) → (bytes : List Byte) → Option Nat
  | _, _, [] => none
  | B, acc, v :: rest =>
    if ord < acc + (popcnt v).toNat then (bitOfOrdinal v ord acc (List.range 8)).map fun b => 8 * B + b
    else slotOfOrdinal ord (B + 1) (acc + (popcnt v).toNat) rest

/-- FIND_ORD (R130): the slot of the ARG0-th occupied slot. -/
def execFindOrd (s : State) : Host.Outcome State Fault Refusal :=
  s.onlyIn .normal <|
    if s.count ≤ s.argIndex then .next (s.raise .ordinalRange)
    else
      match slotOfOrdinal s.argIndex 0 0 s.bytes with
      | some i => .next (s.answer i)
      | none => .fault .ordinalNotFound

/-- R131's loop over the bytes after the first: whole zero bytes are skipped, then `lzs8` finds the slot. -/
def firstOccupied : (B : Nat) → (bytes : List Byte) → Option Nat
  | _, [] => none
  | B, v :: rest => if v = 0 then firstOccupied (B + 1) rest else some (8 * B + lzs8 v)

/-- R131's mask: the slots below bit `b` of a byte dropped. -/
def dropBelow (v : Byte) (b : Nat) : Byte := v &&& (0xFF#8 <<< b)

/-- R131's search: the first occupied slot at or after `i`, if there is one below `cap`. -/
def State.nextOccupied (s : State) (i : Nat) : Option Nat :=
  match s.bytes.drop (i / 8) with
  | [] => none
  | v :: rest => firstOccupied (i / 8) (dropBelow v (i % 8) :: rest)

/-- FIND_NEXT (R131): the first occupied slot at or after ARG0; else RESULT is the sentinel `count` and NOTFOUND is 1. -/
def execFindNext (s : State) : Host.Outcome State Fault Refusal :=
  s.onlyIn .normal <|
    match s.nextOccupied s.argIndex with
    | some i => .next (s.answer i)
    | none => .next ((s.setResult s.count).complete true)

end Sys2Proof.Machine
end

