-- ==== Sys2Proof/Machine/Dispatch.lean ====
section
/-! DEFINITION. One arm per command: the pseudocode of the command's rule with its checks and its completion
(60_exceptions.md R182). -/

namespace Sys2Proof.Machine

def exec (i : Instr) (s : State) : Host.Outcome State Fault Refusal :=
  match i with
  | .reserve => Sys2Proof.Machine.execReserve s
  | .remove => Sys2Proof.Machine.execRemove s
  | .findOrd => Sys2Proof.Machine.execFindOrd s
  | .findNext => Sys2Proof.Machine.execFindNext s
  | .count => Sys2Proof.Machine.execCount s
  | .capacity => Sys2Proof.Machine.execCapacity s
  | .popcnt8 => Sys2Proof.Machine.execPopcnt8 s
  | .set => Sys2Proof.Machine.execSet s
  | .addRange => Sys2Proof.Machine.execAddRange s
  | .readByte => Sys2Proof.Machine.execReadByte s
  | .restoreBegin => Sys2Proof.Machine.execRestoreBegin s
  | .restoreByte => Sys2Proof.Machine.execRestoreByte s
  | .restoreCommit => Sys2Proof.Machine.execRestoreCommit s

end Sys2Proof.Machine
end

