-- ==== Sys2Proof/Machine/Step.lean ====
section
/-! DEFINITION. One step of the machine: the agent whose turn it is (00_scope.md R6) takes its step. -/

namespace Sys2Proof.Machine

/-- The engine's step (60_exceptions.md R182): decode the latched word; an illegal word completes with ILLEGAL_CMD
(30_encoding.md R73); a command is performed and completed whole. -/
def engineStep (s : State) : Host.Outcome State Fault Refusal :=
  match s.fetch with
  | .command i => exec i s
  | .illegal _ => execIllegal s

/-- The engine's turn: it has a step exactly when BUSY = 1 (60_exceptions.md R182). -/
def engineTurn (s : State) : Host.Outcome State Fault Refusal :=
  if s.status.busy then engineStep s else .next s

/-- One step of the machine. -/
def step (s : State) : Host.Outcome State Fault Refusal :=
  match s.takeTurn with
  | (.host, t) => t.hostTurn
  | (.engine, t) => engineTurn t
  | (.reset, t) => .next t.assertReset

/-- `s` with the word accepted as a command (60_exceptions.md R181) and the engine's turn next, so that the next step
fetches and performs it (notes/assumptions/2.md). -/
def State.withFetchWord (s : State) (nbits w : Nat) : State :=
  { s.accept (BitVec.ofNat 32 (w % 2 ^ nbits)) with turns := .engine :: s.turns }

end Sys2Proof.Machine
end

