-- ==== Sys2Proof/Machine/HostProgram.lean ====
section
/-! DEFINITION. Host programs as bus operations: the lines of 30_encoding.md R75, the pseudo-instructions of R76, and
the save and restore procedures of 44_persist.md R151 and R155. -/

namespace Sys2Proof.Machine

/-- A line of a host program as a bus operation at `BASE + offset(REG)` (R75). -/
def asmBus (c : Config) : AsmOp → BusOp
  | .wr r v => .write .w32 (c.base + regOffset r) v
  | .rd r => .read .w32 (c.base + regOffset r)
  | .poll => .poll

/-- A command with its operands: operands first, CMD last, then the poll (R76). -/
def issue (operands : List AsmOp) (i : Instr) : List AsmOp := operands ++ [.wr .cmd (encode i), .poll]

/-- A line that sets an operand: a write of ARG0 or ARG1 (R76). -/
def setsOperand : AsmOp → Bool
  | .wr .arg0 _ | .wr .arg1 _ => true
  | .wr _ _ | .rd _ | .poll => false

/-- What a line that sets an operand leaves while no command is pending (10_state.md R30, R31); other lines set none. -/
def State.storeOperand (s : State) : AsmOp → State
  | .wr .arg0 v => { s with arg0 := v }
  | .wr .arg1 v => { s with arg1 := v }
  | .wr _ _ | .rd _ | .poll => s

/-- The expansion of a pseudo-instruction (R76). -/
def pseudoLines : Pseudo → List AsmOp
  | .reserve => issue [] .reserve
  | .remove i => issue [.wr .arg0 i] .remove
  | .findOrd k => issue [.wr .arg0 k] .findOrd
  | .findNext s => issue [.wr .arg0 s] .findNext
  | .count => issue [] .count
  | .capacity => issue [] .capacity
  | .popcnt8 v => issue [.wr .arg0 v] .popcnt8
  | .set => issue [] .set
  | .addRange => issue [] .addRange
  | .readByte b => issue [.wr .arg0 b] .readByte
  | .restoreBegin => issue [] .restoreBegin
  | .restoreByte v => issue [.wr .arg0 v] .restoreByte
  | .restoreCommit c n => issue [.wr .arg0 c, .wr .arg1 n] .restoreCommit

/-- R151's save of a structure of `n` bytes: CAPACITY, each byte, COUNT, CURSOR. -/
def saveProgram (n : Nat) : List AsmOp :=
  .rd .capacity ::
    ((List.range n).flatMap fun B => pseudoLines (.readByte (zext32 B)) ++ [.rd .result]) ++ [.rd .count, .rd .cursor]

/-- R155's restore of the payload `bytes`, cursor `c`, count `n`, with the check of STATUS after the last command. -/
def restoreProgram (bytes : List Byte) (c n : Word) : List AsmOp :=
  pseudoLines .restoreBegin ++ (bytes.flatMap fun v => pseudoLines (.restoreByte (v.setWidth 32))) ++
    pseudoLines (.restoreCommit c n) ++ [.rd .status]

/-- A host program placed before the host's other operations. -/
def State.withProgram (s : State) (p : List AsmOp) : State := { s with host := p.map (asmBus s.config) ++ s.host }

end Sys2Proof.Machine
end

