-- ==== Sys2Proof/Safety.lean ====
section
/-! DEFINITION. What the statements about the engine are said in: the invariants of 10_state.md R45, what a completion
leaves in STATUS (60_exceptions.md R183, R184), and which state a command leaves alone. -/

namespace Sys2Proof.Machine

/-- The invariants of 10_state.md R45, with the range of the parameters (00_scope.md R8, R10) and the canonical form of
the model's storage (notes/assumptions/9.md). -/
structure Inv (s : State) : Prop where
  /-- R8, R10. -/
  config : s.config.wf = true
  /-- The model's own: storage is canonical. -/
  canonical : Memory.wf s.buf = true
  /-- The model's own: nothing is held at positions `>= L` (R20). -/
  inside : ∀ c ∈ s.buf, c.1 < s.len
  /-- R45(a). -/
  bound : s.len ≤ s.config.maxBytes
  /-- R45(b). -/
  countTotal : s.count = s.total
  /-- R45(c). -/
  cursorBelow : s.mode = .normal → 0 < s.len → s.cursor < s.cap
  /-- R45(d). -/
  restoringBit : s.status.restoring = true ↔ s.mode = .restoring

/-- What the STATUS rules R34 to R37 and R40 say of its fields together, in every state: a pending command shows no
completion; ERR goes with a code; ERR and NOTFOUND are shown by a completed command, and never both. -/
structure StatusInv (st : Status) : Prop where
  /-- R34, R35, R181. -/
  pending : st.busy = true → st.done = false ∧ st.err = false ∧ st.notFound = false ∧ st.errCode = .none
  /-- R36, R40. -/
  errCode : st.err = true ↔ st.errCode ≠ .none
  /-- R35, R36. -/
  errDone : st.err = true → st.done = true
  /-- R37. -/
  notFoundDone : st.notFound = true → st.done = true ∧ st.err = false

/-- The modes a command is allowed in (60_exceptions.md R187). SET and ADD_RANGE are checked before the mode (R186), so
neither mode turns them away with BAD_MODE. -/
def allowedIn : Instr → Mode → Bool
  | .reserve, m | .remove, m | .findOrd, m | .findNext, m => decide (m = .normal)
  | .count, _ | .capacity, _ | .popcnt8, _ | .readByte, _ | .restoreBegin, _ | .set, _ | .addRange, _ => true
  | .restoreByte, m | .restoreCommit, m => decide (m = .restoring)

/-- `t` is `s` after a success completion (R183): BUSY 0, DONE 1, ERR 0, ERRCODE 0, NOTFOUND as said, RESTORING the
mode's, OVR kept. -/
def Succeeded (s t : State) (notFound : Bool) : Prop :=
  t.status.busy = false ∧ t.status.done = true ∧ t.status.err = false ∧ t.status.errCode = .none ∧
    t.status.notFound = notFound ∧ (t.status.restoring = true ↔ t.mode = .restoring) ∧ t.status.ovr = s.status.ovr

/-- `t` is `s` after an error completion with `code` (R184). -/
def Failed (s t : State) (code : ErrCode) : Prop :=
  t.status.busy = false ∧ t.status.done = true ∧ t.status.err = true ∧ t.status.errCode = code ∧
    t.status.notFound = false ∧ (t.status.restoring = true ↔ t.mode = .restoring) ∧ t.status.ovr = s.status.ovr

/-- The operand registers and the latched word are unchanged, and so is everything outside the engine. -/
def KeepsInputs (s t : State) : Prop :=
  t.arg0 = s.arg0 ∧ t.arg1 = s.arg1 ∧ t.cmdw = s.cmdw ∧ t.config = s.config ∧ t.host = s.host ∧ t.turns = s.turns ∧
    t.reads = s.reads

/-- The buffer is unchanged: its length and every byte, read one by one. -/
def KeepsBuffer (s t : State) : Prop := t.len = s.len ∧ ∀ a, t.memByte a = s.memByte a

/-- The structure is unchanged: buffer, count, cursor and mode; no free value was used. -/
def KeepsStructure (s t : State) : Prop :=
  KeepsBuffer s t ∧ t.count = s.count ∧ t.cursor = s.cursor ∧ t.mode = s.mode ∧ t.draws = s.draws

/-- A command's error leaves everything but STATUS (R184). -/
def OnlyFails (s t : State) (code : ErrCode) : Prop :=
  Failed s t code ∧ KeepsInputs s t ∧ KeepsStructure s t ∧ t.result = s.result

/-- `t` holds the empty structure in mode `m` (44_persist.md R152, R154): its cursor is unspecified, so nothing is said
of it. -/
def EmptyIn (t : State) (m : Mode) : Prop := t.len = 0 ∧ t.buf = [] ∧ t.count = 0 ∧ t.mode = m

/-- A state in which the host's operation `op` comes next, and then `s` goes on. -/
def State.hostNext (s : State) (op : BusOp) : State := { s with host := op :: s.host, turns := .host :: s.turns }

/-- A state in which the engine's turn comes next, and then `s` goes on. -/
def State.engineNext (s : State) : State := { s with turns := .engine :: s.turns }

/-- A state in which reset is asserted next, and then `s` goes on. -/
def State.resetNext (s : State) : State := { s with turns := .reset :: s.turns }

/-- The host's 32-bit write of a register (30_encoding.md R75). -/
def writeOf (s : State) (r : Reg) (v : Word) : BusOp := .write .w32 (s.config.base + regOffset r) v

/-- The host's 32-bit read of a register (30_encoding.md R75). -/
def readOf (s : State) (r : Reg) : BusOp := .read .w32 (s.config.base + regOffset r)

/-- The record of one more read. -/
def State.sawRead (s : State) (off : Nat) (v : Word) : State :=
  { s with reads := s.reads ++ [{ offset := off, value := v }] }

/-- The code a command must report (60_exceptions.md R185), checks in R186's order: UNIMPLEMENTED, BAD_MODE (R187), then
the command's own check. -/
def expectedCode (i : Instr) (s : State) : ErrCode :=
  if i = .set ∨ i = .addRange then .unimplemented
  else if allowedIn i s.mode = false then .badMode
  else
    match i with
    | .reserve => if s.count = s.cap ∧ s.len = s.config.maxBytes then .full else .none
    | .remove => if s.cap ≤ s.argIndex then .indexRange else .none
    | .findOrd => if s.count ≤ s.argIndex then .ordinalRange else .none
    | .readByte => if s.len ≤ s.argIndex then .indexRange else .none
    | .restoreByte => if s.len = s.config.maxBytes then .full else .none
    | .restoreCommit =>
      if s.argSavedCount ≠ s.count ∨ (0 < s.cap ∧ s.cap ≤ s.argIndex) then .restoreReject else .none
    | .findNext | .count | .capacity | .popcnt8 | .set | .addRange | .restoreBegin => .none

/-- `n` steps one after another, up to the first that stops. -/
def runFor : Nat → State → Host.Outcome State Fault Refusal
  | 0, s => .next s
  | n + 1, s =>
    match step s with
    | .next t => runFor n t
    | .fault r => .fault r
    | .refused r => .refused r

/-- An outcome with its next state changed by `f`. -/
def mapNext (f : State → State) : Host.Outcome State Fault Refusal → Host.Outcome State Fault Refusal
  | .next t => .next (f t)
  | .fault r => .fault r
  | .refused r => .refused r

/-- A command performed with given operands, and its next state if it completes without error. -/
def succeedsWith (i : Instr) (a0 a1 : Word) (s : State) : Option State :=
  match exec i { s with arg0 := a0, arg1 := a1 } with
  | .next t => if t.status.err then none else some t
  | .fault _ => none
  | .refused _ => none

/-- A command with the operands the host has stored for it. -/
structure Issued where
  cmd : Instr
  arg0 : Word
  arg1 : Word
deriving DecidableEq, Repr

/-- Commands performed one after another, with or without error: the slots that the RESERVE commands without error
return, in order, and the last state. -/
def performRun : List Issued → State → Option (List Nat × State)
  | [], s => some ([], s)
  | c :: rest, s =>
    match exec c.cmd { s with arg0 := c.arg0, arg1 := c.arg1 } with
    | .next t =>
      (performRun rest t).map fun r =>
        (if c.cmd = .reserve ∧ t.status.err = false then t.result.toNat :: r.1 else r.1, r.2)
    | .fault _ => none
    | .refused _ => none

/-- RESTORE_BYTE for each byte of a payload in order (44_persist.md R155), each without error. -/
def restoreBytesRun : List Byte → State → Option State
  | [], s => some s
  | v :: rest, s => do
    let t ← succeedsWith .restoreByte (v.setWidth 32) s.arg1 s
    restoreBytesRun rest t

/-- R155's restore of the payload `bytes`, cursor `c`, count `n`, each command without error. -/
def restoreRun (bytes : List Byte) (c n : Word) (s : State) : Option State := do
  let t ← succeedsWith .restoreBegin s.arg0 s.arg1 s
  let u ← restoreBytesRun bytes t
  succeedsWith .restoreCommit c n u

end Sys2Proof.Machine
end

