-- ==== Sys2Proof/Certificates/Slice0/Obligations.lean ====
section
/-! DEFINITION. The statements for the provers. Each docstring names the rule of spec/ it comes from. -/

open Sys2Proof Sys2Proof.Machine

/-! ## Encoding -/

/-- 30_encoding.md R72: the opcode map, word by word. -/
def Obligations.OpcodeMapDecodes : Prop :=
  decode 0x00000001#32 = .command .reserve ∧ decode 0x00000002#32 = .command .remove ∧
  decode 0x00000003#32 = .command .findOrd ∧ decode 0x00000004#32 = .command .findNext ∧
  decode 0x00000005#32 = .command .count ∧ decode 0x00000006#32 = .command .capacity ∧
  decode 0x00000007#32 = .command .popcnt8 ∧ decode 0x00000008#32 = .command .set ∧
  decode 0x00000009#32 = .command .addRange ∧ decode 0x0000000A#32 = .command .readByte ∧
  decode 0x0000000B#32 = .command .restoreBegin ∧ decode 0x0000000C#32 = .command .restoreByte ∧
  decode 0x0000000D#32 = .command .restoreCommit ∧ decode 0x00000000#32 = .illegal .illegalOpcode ∧
  decode 0x0000000E#32 = .illegal .illegalOpcode ∧ decode 0x0000000F#32 = .illegal .illegalOpcode

/-- Decode and encode agree: a well-formed command's word and bytes decode to it, and no other word does. -/
def Obligations.DecodeEncodeAgree : Prop :=
  ∀ i : Instr, i.wf = true →
    (∀ w : Word, decode w = .command i ↔ w = encode i) ∧
    (∀ bs : List Byte, decodeBytes bs = .command i ↔ bs = encodeBytes i)

/-- 30_encoding.md R73: which words are ILLEGAL_CMD and which are R72's command of their OPCODE; an illegal word is
accepted like any other, and performing it reports ERRCODE 0x1 and changes nothing but STATUS. -/
def Obligations.IllegalWordsOnlyReport : Prop :=
  ∀ (s : State) (w : Word),
    ((∃ why, decode w = .illegal why) ↔
      w.extractLsb' 4 28 ≠ 0 ∨ w.extractLsb' 0 4 = 0x0#4 ∨ w.extractLsb' 0 4 = 0xE#4 ∨ w.extractLsb' 0 4 = 0xF#4) ∧
    (∀ i : Instr, decode w = .command i ↔ w.extractLsb' 4 28 = 0 ∧ w.extractLsb' 0 4 = opcode i) ∧
    (s.status.busy = false →
      ∃ t, step (s.hostNext (writeOf s .cmd w)) = .next t ∧ t.cmdw = w ∧ t.status.busy = true) ∧
    (s.status.busy = true → s.cmdw = w → (∃ why, decode w = .illegal why) →
      ∃ t, step s.engineNext = .next t ∧ OnlyFails s t .illegalCmd ∧ errBits t.status.errCode = 0x1#4)

/-! ## The step and the command lifecycle -/

/-- 60_exceptions.md R182, 00_scope.md R6: a step runs the decoded command. On the engine's turn a pending command's step
is `exec` of it, on the state with that turn taken. The clause for `turns = []` is the model's choice, not the spec's: that
the engine goes first where no schedule is left is the model's default order (notes/assumptions/1.md). -/
def Obligations.StepRunsDecodedCommand : Prop :=
  ∀ (s : State) (i : Instr), s.status.busy = true → decode s.cmdw = .command i →
    step s.engineNext = exec i s ∧ (s.turns = [] → step s = exec i s)

/-- The host's interface of the model: a word placed by `withFetchWord` is accepted and performed by the next step
(notes/assumptions/2.md). -/
def Obligations.PlacedWordRunsNext : Prop :=
  ∀ (s : State) (i : Instr) (w : Word), decode w = .command i →
    step (s.withFetchWord 32 w.toNat) = exec i (s.accept w)

/-- 30_encoding.md R76: the expansion of each pseudo-instruction, line by line. -/
def Obligations.PseudoInstructionsExpand : Prop :=
  pseudoLines .reserve = [.wr .cmd 0x00000001#32, .poll] ∧
  (∀ i, pseudoLines (.remove i) = [.wr .arg0 i, .wr .cmd 0x00000002#32, .poll]) ∧
  (∀ k, pseudoLines (.findOrd k) = [.wr .arg0 k, .wr .cmd 0x00000003#32, .poll]) ∧
  (∀ s, pseudoLines (.findNext s) = [.wr .arg0 s, .wr .cmd 0x00000004#32, .poll]) ∧
  pseudoLines .count = [.wr .cmd 0x00000005#32, .poll] ∧
  pseudoLines .capacity = [.wr .cmd 0x00000006#32, .poll] ∧
  (∀ v, pseudoLines (.popcnt8 v) = [.wr .arg0 v, .wr .cmd 0x00000007#32, .poll]) ∧
  pseudoLines .set = [.wr .cmd 0x00000008#32, .poll] ∧
  pseudoLines .addRange = [.wr .cmd 0x00000009#32, .poll] ∧
  (∀ b, pseudoLines (.readByte b) = [.wr .arg0 b, .wr .cmd 0x0000000A#32, .poll]) ∧
  pseudoLines .restoreBegin = [.wr .cmd 0x0000000B#32, .poll] ∧
  (∀ v, pseudoLines (.restoreByte v) = [.wr .arg0 v, .wr .cmd 0x0000000C#32, .poll]) ∧
  ∀ c n, pseudoLines (.restoreCommit c n) = [.wr .arg0 c, .wr .arg1 n, .wr .cmd 0x0000000D#32, .poll]

/-- 30_encoding.md R75, R76, 70_reset_and_hazards.md R206: on an idle engine with no schedule left, any operand writes
(none, one or several), a command word and a poll perform the command with those operands: the writes, the command, and
one STATUS read, which ends the poll. Every pseudo-instruction is such a program. The order of these steps is the model's
default order (notes/assumptions/1.md). -/
def Obligations.IssuedCommandRunsWithItsOperand : Prop :=
  (∀ (s t : State) (i : Instr) (operands : List AsmOp), (∀ op ∈ operands, setsOperand op = true) →
    s.status.busy = false → s.turns = [] →
    exec i ({ operands.foldl State.storeOperand s with host := .poll :: s.host }.accept (encode i)) = .next t →
    runFor (operands.length + 3) (s.withProgram (issue operands i)) =
      .next { t with host := s.host, reads := t.reads ++ [{ offset := 0x10, value := t.status.word }] }) ∧
  ∀ p : Pseudo, ∃ operands i, (∀ op ∈ operands, setsOperand op = true) ∧ pseudoLines p = issue operands i

/-- 60_exceptions.md R181: acceptance of any word while BUSY = 0, and none while BUSY = 1. -/
def Obligations.CommandAcceptance : Prop :=
  ∀ (s : State) (w : Word),
    (s.status.busy = false →
      step (s.hostNext (writeOf s .cmd w)) =
        .next { s with
          cmdw := w
          status := { s.status with busy := true, done := false, err := false, notFound := false, errCode := .none } }) ∧
    (s.status.busy = true →
      ∃ t, step (s.hostNext (writeOf s .cmd w)) = .next t ∧ t.cmdw = s.cmdw ∧ t.status.done = s.status.done ∧
        t.status.err = s.status.err ∧ t.status.notFound = s.status.notFound ∧ t.status.errCode = s.status.errCode)

/-- 70_reset_and_hazards.md R204: a CMD, ARG0 or ARG1 write while BUSY = 1 changes OVR only, and a poll ends only with
BUSY = 0. -/
def Obligations.BusyWritesAreDropped : Prop :=
  ∀ (s : State) (v : Word), s.status.busy = true →
    (∀ r : Reg, r = .cmd ∨ r = .arg0 ∨ r = .arg1 →
      step (s.hostNext (writeOf s r v)) = .next { s with status := { s.status with ovr := true } }) ∧
    ∃ t, step (s.hostNext .poll) = .next t ∧ t.host = .poll :: s.host

/-- 10_state.md R30, R31: operand writes while BUSY = 0 store the word, and a read returns it whatever BUSY is. -/
def Obligations.OperandRegistersHoldTheirWord : Prop :=
  ∀ (s : State) (v : Word),
    (s.status.busy = false →
      step (s.hostNext (writeOf s .arg0 v)) = .next { s with arg0 := v } ∧
      step (s.hostNext (writeOf s .arg1 v)) = .next { s with arg1 := v }) ∧
    step (s.hostNext (readOf s .arg0)) = .next (s.sawRead 0x04 s.arg0) ∧
    step (s.hostNext (readOf s .arg1)) = .next (s.sawRead 0x08 s.arg1)

/-- 10_state.md R33: a STATUS write, whatever BUSY is, clears OVR if bit 5 is 1 and changes nothing else. -/
def Obligations.StatusWriteClearsOvrOnly : Prop :=
  ∀ (s : State) (v : Word),
    step (s.hostNext (writeOf s .status v)) =
      .next { s with status := { s.status with ovr := s.status.ovr && !v.getLsbD 5 } }

/-- 10_state.md R33: where each field of STATUS stands in the word read. -/
def Obligations.StatusWordLayout : Prop :=
  ∀ st : Status,
    st.word.getLsbD 0 = st.busy ∧ st.word.getLsbD 1 = st.done ∧ st.word.getLsbD 2 = st.err ∧
    st.word.getLsbD 3 = st.notFound ∧ st.word.getLsbD 4 = st.restoring ∧ st.word.getLsbD 5 = st.ovr ∧
    st.word.extractLsb' 6 2 = 0#2 ∧ st.word.extractLsb' 8 4 = errBits st.errCode ∧ st.word.extractLsb' 12 20 = 0#20

/-- 10_state.md R32, R33, R41, R42, R44: the register views while no command is pending. -/
def Obligations.IdleReadsShowTheState : Prop :=
  ∀ s : State, Inv s → s.status.busy = false →
    step (s.hostNext (readOf s .result)) = .next (s.sawRead 0x0C s.result) ∧
    step (s.hostNext (readOf s .status)) = .next (s.sawRead 0x10 s.status.word) ∧
    (∃ v : Word, step (s.hostNext (readOf s .count)) = .next (s.sawRead 0x14 v) ∧ v.toNat = s.total) ∧
    (∃ v : Word, step (s.hostNext (readOf s .capacity)) = .next (s.sawRead 0x18 v) ∧ v.toNat = 8 * s.len) ∧
    (∃ v : Word, step (s.hostNext (readOf s .param)) = .next (s.sawRead 0x20 v) ∧ v.toNat = s.config.maxBytes)

/-- 10_state.md R43: CURSOR reads the cursor in NORMAL mode with cap > 0 and BUSY = 0; else each read returns the next
free value; a write is ignored. That a draw is the next value of a counted sequence is the model's form
(notes/assumptions/7.md). -/
def Obligations.CursorRegister : Prop :=
  ∀ s : State, Inv s →
    (s.mode = .normal ∧ 0 < s.cap ∧ s.status.busy = false →
      ∃ v : Word, step (s.hostNext (readOf s .cursor)) = .next (s.sawRead 0x1C v) ∧ v.toNat = s.cursor) ∧
    (s.cap = 0 ∨ s.mode = .restoring ∨ s.status.busy = true →
      step (s.hostNext (readOf s .cursor)) =
        .next { s.sawRead 0x1C (Config.freeWord s.draws) with draws := s.draws + 1 }) ∧
    ∀ v : Word, step (s.hostNext (writeOf s .cursor v)) = .next s

/-- 70_reset_and_hazards.md R205: while BUSY = 1 what reads exactly, and what reads as a fresh free value; no read changes
anything but the draw counter and the host's record. The form of a draw is the model's (notes/assumptions/7.md, 22.md). -/
def Obligations.BusyReadsAreDraws : Prop :=
  ∀ s : State, s.status.busy = true →
    (∃ v : Word,
      step (s.hostNext (readOf s .status)) = .next { s.sawRead 0x10 v with draws := s.draws + 1 } ∧
      v.getLsbD 0 = true ∧ v.getLsbD 5 = s.status.ovr ∧ v.extractLsb' 6 2 = 0#2 ∧ v.extractLsb' 12 20 = 0#20 ∧
      v.extractLsb' 1 4 = (Config.freeWord s.draws).extractLsb' 1 4 ∧
      v.extractLsb' 8 4 = (Config.freeWord s.draws).extractLsb' 8 4) ∧
    (∀ r : Reg, r = .result ∨ r = .count ∨ r = .capacity ∨ r = .cursor →
      step (s.hostNext (readOf s r)) =
        .next { s.sawRead (regOffset r) (Config.freeWord s.draws) with draws := s.draws + 1 }) ∧
    step (s.hostNext (readOf s .arg0)) = .next (s.sawRead 0x04 s.arg0) ∧
    step (s.hostNext (readOf s .arg1)) = .next (s.sawRead 0x08 s.arg1) ∧
    step (s.hostNext (readOf s .cmd)) = .next (s.sawRead 0x00 0) ∧
    step (s.hostNext (readOf s .param)) = .next (s.sawRead 0x20 (zext32 s.config.maxBytes)) ∧
    ∀ off : Nat, 0x24 ≤ off → off ≤ 0xFC → off % 4 = 0 →
      step (s.hostNext (.read .w32 (s.config.base + off))) = .next (s.sawRead off 0)

/-- 20_memory.md R56: reserved offsets read 0 and ignore writes, CMD reads 0, and the read-only registers ignore writes;
none of these sets OVR, whatever BUSY is. -/
def Obligations.ReservedOffsetsAndReadOnlyRegisters : Prop :=
  ∀ (s : State) (v : Word),
    (∀ off : Nat, 0x24 ≤ off → off ≤ 0xFC → off % 4 = 0 →
      step (s.hostNext (.read .w32 (s.config.base + off))) = .next (s.sawRead off 0) ∧
      step (s.hostNext (.write .w32 (s.config.base + off) v)) = .next s) ∧
    step (s.hostNext (readOf s .cmd)) = .next (s.sawRead 0x00 0) ∧
    ∀ r : Reg, r = .result ∨ r = .count ∨ r = .capacity ∨ r = .cursor ∨ r = .param →
      step (s.hostNext (writeOf s r v)) = .next s

/-- 20_memory.md R54: an access of another width, or at an offset that is no multiple of 4, is refused; every 32-bit
aligned access of the window is a step. -/
def Obligations.AccessShapeIsChecked : Prop :=
  ∀ (s : State) (w : Width) (off : Nat) (v : Word), off < 256 →
    (w ≠ .w32 ∨ off % 4 ≠ 0 →
      step (s.hostNext (.read w (s.config.base + off))) = .refused .accessShape ∧
      step (s.hostNext (.write w (s.config.base + off) v)) = .refused .accessShape) ∧
    (w = .w32 ∧ off % 4 = 0 →
      (∃ t, step (s.hostNext (.read w (s.config.base + off))) = .next t) ∧
      ∃ t, step (s.hostNext (.write w (s.config.base + off) v)) = .next t)

/-- 20_memory.md R57: a read, or a poll, changes no state of the engine. -/
def Obligations.ReadsHaveNoSideEffect : Prop :=
  ∀ (s t : State) (op : BusOp), (op = .poll ∨ ∃ w addr, op = .read w addr) → step (s.hostNext op) = .next t →
    KeepsBuffer s t ∧ t.buf = s.buf ∧ t.count = s.count ∧ t.cursor = s.cursor ∧ t.mode = s.mode ∧ t.cmdw = s.cmdw ∧
    t.arg0 = s.arg0 ∧ t.arg1 = s.arg1 ∧ t.result = s.result ∧ t.status = s.status ∧ t.config = s.config

/-- 70_reset_and_hazards.md R208: no host operation aborts a pending command; it leaves the command, its operands, the
structure, RESULT and the pending status alone. Only the engine's completion and reset end it. -/
def Obligations.HostCannotCancel : Prop :=
  (∀ (s t : State) (op : BusOp), s.status.busy = true → step (s.hostNext op) = .next t →
    t.status.busy = true ∧ t.cmdw = s.cmdw ∧ t.arg0 = s.arg0 ∧ t.arg1 = s.arg1 ∧ KeepsBuffer s t ∧
    t.count = s.count ∧ t.cursor = s.cursor ∧ t.mode = s.mode ∧ t.result = s.result) ∧
  (∀ s t : State, s.status.busy = true → step s = .next t → t.status.busy = false →
    s.takeTurn.1 = .engine ∨ s.takeTurn.1 = .reset)

/-- 10_state.md R39: OVR is set by a dropped CMD, ARG0 or ARG1 write and by nothing else, and cleared by a STATUS write
with bit 5 = 1 and by reset and by nothing else. -/
def Obligations.OvrEvents : Prop :=
  (∀ (s : State) (r : Reg) (v : Word), s.status.busy = true → (r = .cmd ∨ r = .arg0 ∨ r = .arg1) →
    step (s.hostNext (writeOf s r v)) = .next { s with status := { s.status with ovr := true } }) ∧
  (∀ (s : State) (v : Word), v.getLsbD 5 = true →
    step (s.hostNext (writeOf s .status v)) = .next { s with status := { s.status with ovr := false } }) ∧
  (∀ s : State, ∃ t, step s.resetNext = .next t ∧ t.status.ovr = false) ∧
  ∀ s t : State, step s = .next t →
    (s.status.ovr = false → t.status.ovr = true →
      s.status.busy = true ∧ s.takeTurn.1 = .host ∧
      ∃ r v, (r = .cmd ∨ r = .arg0 ∨ r = .arg1) ∧ s.host.head? = some (writeOf s r v)) ∧
    (s.status.ovr = true → t.status.ovr = false →
      s.takeTurn.1 = .reset ∨
      (s.takeTurn.1 = .host ∧ ∃ v : Word, v.getLsbD 5 = true ∧ s.host.head? = some (writeOf s .status v)))

/-- With no command pending and no host operation left, nothing changes; an engine turn with no command pending changes
nothing. 60_exceptions.md R196 says that an idle engine holds all state; R182 gives it no step there. That such a turn is a
next state, and not no step, is the model's choice, a stutter (notes/assumptions/17.md), and so is whose turn it is for
`turns = []` (notes/assumptions/1.md). -/
def Obligations.IdleHoldsAllState : Prop :=
  ∀ s : State, s.status.busy = false → step s.engineNext = .next s ∧ (s.turns = [] → s.host = [] → step s = .next s)

/-! ## Reset -/

/-- 10_state.md R48: the state after reset, in every configuration, as the host can read it, and the ROM's contents. -/
def Obligations.ResetState : Prop :=
  ∀ c : Config, c.wf = true →
    let s := State.resetOf c
    s.len = 0 ∧ s.cap = 0 ∧ s.bytes = [] ∧ s.count = 0 ∧ s.mode = .normal ∧ s.arg0 = 0 ∧ s.arg1 = 0 ∧ s.result = 0 ∧
    s.status.word = 0 ∧ s.config = c ∧
    (s.readReg .count).1 = 0 ∧ (s.readReg .capacity).1 = 0 ∧ (s.readReg .status).1 = 0 ∧
    (s.readReg .param).1.toNat = c.maxBytes ∧
    ∀ v : Byte, (popcnt v).toNat = popcount8 v

/-- 70_reset_and_hazards.md R200, R201: reset asserted in any state gives R48's state, a pending command is discarded, and
the engine then accepts a command at once. -/
def Obligations.ResetAsserted : Prop :=
  ∀ s : State, ∃ t, step s.resetNext = .next t ∧
    t.len = 0 ∧ t.buf = [] ∧ t.count = 0 ∧ t.mode = .normal ∧ t.arg0 = 0 ∧ t.arg1 = 0 ∧ t.result = 0 ∧
    t.status = Status.reset ∧ t.config = s.config ∧
    ∀ w : Word, ∃ u, step (t.hostNext (writeOf t .cmd w)) = .next u ∧ u.cmdw = w ∧ u.status.busy = true

/-! ## What every command does to STATUS, errors, and frames -/

/-- 60_exceptions.md R183, R184: every completion clears BUSY, sets DONE, shows the mode, keeps OVR; ERR goes with the
code; NOTFOUND is FIND_NEXT's alone. -/
def Obligations.EveryCompletionWritesStatus : Prop :=
  ∀ (i : Instr) (s t : State), exec i s = .next t →
    t.status.busy = false ∧ t.status.done = true ∧ (t.status.restoring = true ↔ t.mode = .restoring) ∧
    t.status.ovr = s.status.ovr ∧ (t.status.err = true ↔ t.status.errCode ≠ .none) ∧
    (t.status.notFound = true → i = .findNext ∧ t.status.err = false)

/-- 60_exceptions.md R184: an error leaves buffer, L, count, cursor, mode, RESULT and the operands as they were; only a
rejected RESTORE_COMMIT leaves the empty NORMAL structure instead. -/
def Obligations.ErrorsLeaveTheStructure : Prop :=
  ∀ (i : Instr) (s t : State), exec i s = .next t → t.status.err = true →
    if t.status.errCode = .restoreReject then
      i = .restoreCommit ∧ Failed s t .restoreReject ∧ EmptyIn t .normal ∧ KeepsInputs s t ∧ t.result = s.result
    else OnlyFails s t t.status.errCode

/-- 60_exceptions.md R185, R186, R187: the engine's step reports exactly one code, by cause and in priority order, and
STATUS bits 11:8 show R185's number for it. -/
def Obligations.ErrorCodeByCauseAndPriority : Prop :=
  (errBits .none = 0x0#4 ∧ errBits .illegalCmd = 0x1#4 ∧ errBits .unimplemented = 0x2#4 ∧ errBits .badMode = 0x3#4 ∧
    errBits .indexRange = 0x4#4 ∧ errBits .ordinalRange = 0x5#4 ∧ errBits .full = 0x6#4 ∧
    errBits .restoreReject = 0x7#4) ∧
  ∀ s : State, Inv s → s.status.busy = true →
    ∃ t, step s.engineNext = .next t ∧ t.status.word.extractLsb' 8 4 = errBits t.status.errCode ∧
      t.status.errCode =
        match decode s.cmdw with
        | .illegal _ => .illegalCmd
        | .command i => expectedCode i s

/-- 10_state.md R32: RESULT is written only by a value-producing command that completes without error. -/
def Obligations.ResultWrittenOnlyByValues : Prop :=
  ∀ (i : Instr) (s t : State), exec i s = .next t →
    (t.status.err = true ∨ i = .remove ∨ i = .set ∨ i = .addRange ∨ i = .restoreBegin ∨ i = .restoreByte ∨
      i = .restoreCommit) →
    t.result = s.result

/-- 10_state.md R30, R31 and the command rules: no command writes an operand register or the latched word; which commands
may change the buffer, the count, the cursor and the mode. -/
def Obligations.CommandFrames : Prop :=
  ∀ (i : Instr) (s t : State), exec i s = .next t →
    KeepsInputs s t ∧
    (i ≠ .reserve → i ≠ .remove → i ≠ .restoreBegin → i ≠ .restoreByte → i ≠ .restoreCommit → KeepsStructure s t) ∧
    (i ≠ .reserve → i ≠ .restoreBegin → i ≠ .restoreCommit → t.cursor = s.cursor ∧ t.draws = s.draws) ∧
    (i ≠ .restoreBegin → i ≠ .restoreCommit → t.mode = s.mode)

/-- 30_encoding.md R71: only RESTORE_COMMIT reads ARG1; RESERVE, COUNT, CAPACITY, SET, ADD_RANGE and RESTORE_BEGIN do not
read ARG0; POPCNT8 and RESTORE_BYTE read its bits 7:0 only. Two machines with the same draw counter are compared, so for
RESTORE_BEGIN their unspecified cursors are the same free value: that part is the model's form of a free value
(notes/assumptions/7.md, 8.md), not the spec's. -/
def Obligations.OperandBitsRead : Prop :=
  (∀ (i : Instr) (s : State) (v : Word), i ≠ .restoreCommit →
    exec i { s with arg1 := v } = mapNext (fun t => { t with arg1 := v }) (exec i s)) ∧
  (∀ (i : Instr) (s : State) (v : Word),
    (i = .reserve ∨ i = .count ∨ i = .capacity ∨ i = .set ∨ i = .addRange ∨ i = .restoreBegin) ∨
      ((i = .popcnt8 ∨ i = .restoreByte) ∧ v.extractLsb' 0 8 = s.arg0.extractLsb' 0 8) →
    exec i { s with arg0 := v } = mapNext (fun t => { t with arg0 := v }) (exec i s))

/-- 10_state.md R20, R22: over any step the buffer length stays, grows by one byte with the bytes before it kept, in
the engine's step of RESERVE or RESTORE_BYTE, or becomes 0, in the engine's step of RESTORE_BEGIN or of a rejected
RESTORE_COMMIT, or by reset. -/
def Obligations.BufferGrowsByOneOrIsDiscarded : Prop :=
  ∀ s t : State, Inv s → step s = .next t →
    t.len = s.len ∨
    (t.len = s.len + 1 ∧ s.takeTurn.1 = .engine ∧ s.status.busy = true ∧
      (decode s.cmdw = .command .reserve ∨ decode s.cmdw = .command .restoreByte) ∧
      ∀ B < s.len, t.memByte B = s.memByte B) ∨
    (t.len = 0 ∧
      (s.takeTurn.1 = .reset ∨
        (s.takeTurn.1 = .engine ∧ s.status.busy = true ∧
          (decode s.cmdw = .command .restoreBegin ∨
            (decode s.cmdw = .command .restoreCommit ∧ t.status.errCode = .restoreReject)))))

/-- 10_state.md R25: RESTORING is entered by RESTORE_BEGIN only, and left by RESTORE_COMMIT or reset only. -/
def Obligations.ModeChangesOnlyByRestore : Prop :=
  ∀ s t : State, step s = .next t →
    (s.mode = .normal → t.mode = .restoring → s.takeTurn.1 = .engine ∧ decode s.cmdw = .command .restoreBegin) ∧
    (s.mode = .restoring → t.mode = .normal →
      s.takeTurn.1 = .reset ∨ (s.takeTurn.1 = .engine ∧ decode s.cmdw = .command .restoreCommit))

/-- 00_scope.md R8, R10, 10_state.md R44: no step changes the parameters. -/
def Obligations.ParametersAreConstant : Prop :=
  ∀ s t : State, step s = .next t → t.config = s.config

/-! ## POPCNT8, COUNT, CAPACITY -/

/-- 40_popcount.md R90: POPCNT8 in either mode gives the number of 1 bits of ARG0[7:0], and changes no other state than
STATUS. -/
def Obligations.Popcnt8CountsOnes : Prop :=
  decode 0x00000007#32 = .command .popcnt8 ∧
  ∀ s : State, ∃ t, exec .popcnt8 s = .next t ∧ t.result.toNat = popcount8 (s.arg0.extractLsb' 0 8) ∧
    Succeeded s t false ∧ KeepsInputs s t ∧ KeepsStructure s t

/-- 41_query.md R100: COUNT in either mode gives the occupied count, which is the number of 1 bits in the buffer. -/
def Obligations.CountGivesOccupied : Prop :=
  decode 0x00000005#32 = .command .count ∧
  ∀ s : State, ∃ t, exec .count s = .next t ∧ t.result = zext32 s.count ∧ (Inv s → t.result.toNat = s.total) ∧
    Succeeded s t false ∧ KeepsInputs s t ∧ KeepsStructure s t

/-- 41_query.md R101: CAPACITY in either mode gives `8 * L`, a multiple of 8 and at most `8 * MAX_BYTES`. -/
def Obligations.CapacityGivesEightL : Prop :=
  decode 0x00000006#32 = .command .capacity ∧
  ∀ s : State, ∃ t, exec .capacity s = .next t ∧ t.result = zext32 (8 * s.len) ∧
    (Inv s → t.result.toNat = 8 * s.len ∧ t.result.toNat ≤ 8 * s.config.maxBytes) ∧
    Succeeded s t false ∧ KeepsInputs s t ∧ KeepsStructure s t

/-! ## RESERVE and REMOVE -/

/-- 42_allocate.md R110, R112. A full buffer below MAX_BYTES gets the byte 0x01: the slot returned is the old capacity
and the cursor stands just past it. With a free slot, RESERVE takes the free slot nearest to the cursor going up and
around, sets that one bit, and moves the cursor just past it, wrapping. FULL where the buffer is full and holds MAX_BYTES
bytes; BAD_MODE in RESTORING. -/
def Obligations.ReserveAllocatesOrGrows : Prop :=
  decode 0x00000001#32 = .command .reserve ∧
  (∀ s : State, Inv s → s.mode = .normal → s.count = s.cap → s.len ≠ s.config.maxBytes →
    ∃ t, exec .reserve s = .next t ∧ t.len = s.len + 1 ∧ t.memByte s.len = 0x01#8 ∧
      (∀ a, a ≠ s.len → t.memByte a = s.memByte a) ∧ t.cursor = s.cap + 1 ∧ t.count = s.count + 1 ∧
      t.result.toNat = s.cap ∧ t.mode = .normal ∧ t.draws = s.draws ∧ Succeeded s t false ∧ KeepsInputs s t) ∧
  (∀ s : State, Inv s → s.mode = .normal → s.count ≠ s.cap →
    ∃ i t, i < s.cap ∧ s.slotbit i = false ∧
      (∀ j < s.cap, s.slotbit j = false → (i + s.cap - s.cursor) % s.cap ≤ (j + s.cap - s.cursor) % s.cap) ∧
      exec .reserve s = .next t ∧ t.result.toNat = i ∧ (∀ j, t.slotbit j = (decide (j = i) || s.slotbit j)) ∧
      (∀ a, a ≠ i / 8 → t.memByte a = s.memByte a) ∧ t.len = s.len ∧ t.count = s.count + 1 ∧
      t.cursor = (i + 1) % s.cap ∧ t.mode = .normal ∧ t.draws = s.draws ∧ Succeeded s t false ∧ KeepsInputs s t) ∧
  ∀ s : State,
    (s.mode = .restoring → ∃ t, exec .reserve s = .next t ∧ OnlyFails s t .badMode) ∧
    (s.mode = .normal → s.count = s.cap → s.len = s.config.maxBytes →
      ∃ t, exec .reserve s = .next t ∧ OnlyFails s t .full)

/-- 42_allocate.md R111: REMOVE of an occupied slot clears that bit and lowers the count by one; of a free slot it is a
no-op; cursor, L and RESULT never change; INDEX_RANGE at and above cap, on all 32 bits; BAD_MODE in RESTORING. -/
def Obligations.RemoveFreesOneSlot : Prop :=
  decode 0x00000002#32 = .command .remove ∧
  ∀ s : State,
    (s.mode = .restoring → ∃ t, exec .remove s = .next t ∧ OnlyFails s t .badMode) ∧
    (s.mode = .normal → s.cap ≤ s.arg0.toNat → ∃ t, exec .remove s = .next t ∧ OnlyFails s t .indexRange) ∧
    (s.mode = .normal → s.arg0.toNat < s.cap → s.slotbit s.arg0.toNat = false →
      ∃ t, exec .remove s = .next t ∧ Succeeded s t false ∧ KeepsInputs s t ∧ KeepsStructure s t ∧
        t.result = s.result) ∧
    (Memory.wf s.buf = true → s.mode = .normal → s.arg0.toNat < s.cap → s.slotbit s.arg0.toNat = true →
      ∃ t, exec .remove s = .next t ∧ Succeeded s t false ∧ KeepsInputs s t ∧ t.count = s.count - 1 ∧ t.len = s.len ∧
        (∀ j, t.slotbit j = (decide (j ≠ s.arg0.toNat) && s.slotbit j)) ∧
        (∀ a, a ≠ s.arg0.toNat / 8 → t.memByte a = s.memByte a) ∧
        t.cursor = s.cursor ∧ t.mode = .normal ∧ t.draws = s.draws ∧ t.result = s.result)

/-- 42_allocate.md R114, no double allocation: in any run of commands from NORMAL mode with no REMOVE and no
RESTORE_BEGIN (which ends the structure) among them, whichever of the other commands stand between the RESERVE commands
and whether they err or not, the slots returned are pairwise distinct, each free before and occupied after, and the count rises by
one for each. No RESERVE errs where the run does not end full at MAX_BYTES. -/
def Obligations.ReservesReturnDistinctSlots : Prop :=
  ∀ (cs : List Issued) (s : State), Inv s → s.mode = .normal →
    (∀ c ∈ cs, c.cmd ≠ .remove ∧ c.cmd ≠ .restoreBegin) →
    ∃ slots t, performRun cs s = some (slots, t) ∧ slots.Nodup ∧ t.count = s.count + slots.length ∧ s.cap ≤ t.cap ∧
      (∀ i ∈ slots, i < t.cap ∧ t.slotbit i = true ∧ (i < s.cap → s.slotbit i = false)) ∧
      (t.count ≠ t.cap ∨ t.len ≠ t.config.maxBytes → slots.length = cs.countP fun c => decide (c.cmd = .reserve))

/-- 42_allocate.md R114, allocate and free: a RESERVE and then a REMOVE of its result give the count back, and free that
slot again. -/
def Obligations.ReserveThenRemoveRoundTrip : Prop :=
  ∀ s t u : State, Inv s → s.mode = .normal → succeedsWith .reserve s.arg0 s.arg1 s = some t →
    succeedsWith .remove t.result t.arg1 t = some u →
    u.count = s.count ∧ u.total = s.total ∧ u.slotbit t.result.toNat = false

/-! ## FIND_ORD and FIND_NEXT -/

/-- 43_search.md R130, R132: FIND_ORD gives the one occupied slot of rank ARG0; ORDINAL_RANGE at and above the count, on
all 32 bits; BAD_MODE in RESTORING. -/
def Obligations.FindOrdSelectsByRank : Prop :=
  decode 0x00000003#32 = .command .findOrd ∧
  (∀ s : State, Inv s → s.mode = .normal → s.arg0.toNat < s.count →
    ∃ t, exec .findOrd s = .next t ∧ t.result.toNat < s.cap ∧ s.slotbit t.result.toNat = true ∧
      s.rank t.result.toNat = s.arg0.toNat ∧
      (∀ j < s.cap, s.slotbit j = true → s.rank j = s.arg0.toNat → j = t.result.toNat) ∧
      Succeeded s t false ∧ KeepsInputs s t ∧ KeepsStructure s t) ∧
  ∀ s : State,
    (s.mode = .restoring → ∃ t, exec .findOrd s = .next t ∧ OnlyFails s t .badMode) ∧
    (s.mode = .normal → s.count ≤ s.arg0.toNat → ∃ t, exec .findOrd s = .next t ∧ OnlyFails s t .ordinalRange)

/-- 43_search.md R131, R132: FIND_NEXT gives the least occupied slot at or after ARG0; where there is none, at any ARG0,
NOTFOUND is 1 and RESULT is the count; BAD_MODE in RESTORING and no other error. -/
def Obligations.FindNextFindsFirst : Prop :=
  decode 0x00000004#32 = .command .findNext ∧
  (∀ s : State, Inv s → s.mode = .normal →
    ∃ t, exec .findNext s = .next t ∧ KeepsInputs s t ∧ KeepsStructure s t ∧
      ((∃ i, s.arg0.toNat ≤ i ∧ i < s.cap ∧ s.slotbit i = true) →
        Succeeded s t false ∧ s.arg0.toNat ≤ t.result.toNat ∧ t.result.toNat < s.cap ∧
        s.slotbit t.result.toNat = true ∧ ∀ j, s.arg0.toNat ≤ j → j < t.result.toNat → s.slotbit j = false) ∧
      ((∀ i, s.arg0.toNat ≤ i → i < s.cap → s.slotbit i = false) →
        Succeeded s t true ∧ t.result.toNat = s.count)) ∧
  ∀ s : State, s.mode = .restoring → ∃ t, exec .findNext s = .next t ∧ OnlyFails s t .badMode

/-- 43_search.md R134: the slots FIND_ORD gives for the ordinals below the count rise strictly and are exactly the
occupied slots, and FIND_NEXT from 0 gives FIND_ORD's slot of ordinal 0. -/
def Obligations.OrdinalsEnumerateOccupied : Prop :=
  ∀ s : State, Inv s → s.mode = .normal →
    (∀ (k k' : Word) (t t' : State), k.toNat < k'.toNat → succeedsWith .findOrd k s.arg1 s = some t →
      succeedsWith .findOrd k' s.arg1 s = some t' → t.result.toNat < t'.result.toNat) ∧
    (∀ i < s.cap, s.slotbit i = true ↔
      ∃ (k : Word) (t : State), k.toNat < s.count ∧ succeedsWith .findOrd k s.arg1 s = some t ∧ t.result.toNat = i) ∧
    (0 < s.count → ∃ t u, succeedsWith .findOrd 0 s.arg1 s = some t ∧ succeedsWith .findNext 0 s.arg1 s = some u ∧
      u.result = t.result ∧ u.status.notFound = false)

/-! ## SET and ADD_RANGE -/

/-- 45_reserved.md R170, R171: SET and ADD_RANGE, in either mode and whatever the operands, report UNIMPLEMENTED and
change nothing but STATUS. -/
def Obligations.ReservedCommandsReportUnimplemented : Prop :=
  decode 0x00000008#32 = .command .set ∧ decode 0x00000009#32 = .command .addRange ∧
  ∀ s : State,
    (∃ t, exec .set s = .next t ∧ OnlyFails s t .unimplemented) ∧
    ∃ t, exec .addRange s = .next t ∧ OnlyFails s t .unimplemented

/-! ## Save and restore -/

/-- 44_persist.md R150: READ_BYTE in either mode gives the byte at ARG0 below L; INDEX_RANGE at and above L. -/
def Obligations.ReadByteGivesTheByte : Prop :=
  decode 0x0000000A#32 = .command .readByte ∧
  ∀ s : State,
    (s.arg0.toNat < s.len →
      ∃ t, exec .readByte s = .next t ∧ t.result = (s.memByte s.arg0.toNat).setWidth 32 ∧ Succeeded s t false ∧
        KeepsInputs s t ∧ KeepsStructure s t) ∧
    (s.len ≤ s.arg0.toNat → ∃ t, exec .readByte s = .next t ∧ OnlyFails s t .indexRange)

/-- 44_persist.md R152: RESTORE_BEGIN in either mode leaves the empty structure in RESTORING mode, RESULT unchanged. The
cursor is unspecified: nothing is said of it. -/
def Obligations.RestoreBeginDiscards : Prop :=
  decode 0x0000000B#32 = .command .restoreBegin ∧
  ∀ s : State, ∃ t, exec .restoreBegin s = .next t ∧ EmptyIn t .restoring ∧ t.status.restoring = true ∧
    Succeeded s t false ∧ KeepsInputs s t ∧ t.result = s.result

/-- 44_persist.md R153: RESTORE_BYTE in RESTORING appends ARG0[7:0] and adds its popcount to the count; FULL at MAX_BYTES;
BAD_MODE in NORMAL. -/
def Obligations.RestoreByteAppends : Prop :=
  decode 0x0000000C#32 = .command .restoreByte ∧
  ∀ s : State,
    (s.mode = .normal → ∃ t, exec .restoreByte s = .next t ∧ OnlyFails s t .badMode) ∧
    (s.mode = .restoring → s.len = s.config.maxBytes → ∃ t, exec .restoreByte s = .next t ∧ OnlyFails s t .full) ∧
    (Memory.wf s.buf = true → s.mode = .restoring → s.len ≠ s.config.maxBytes →
      ∃ t, exec .restoreByte s = .next t ∧ t.len = s.len + 1 ∧ t.bytes = s.bytes ++ [s.arg0.extractLsb' 0 8] ∧
        (∀ a, a ≠ s.len → t.memByte a = s.memByte a) ∧
        t.count = s.count + popcount8 (s.arg0.extractLsb' 0 8) ∧ (s.count = s.total → t.count = t.total) ∧
        t.cursor = s.cursor ∧ t.mode = .restoring ∧ t.draws = s.draws ∧ t.result = s.result ∧ Succeeded s t false ∧
        KeepsInputs s t)

/-- 44_persist.md R154: RESTORE_COMMIT in RESTORING accepts a payload whose count and cursor fit, rejects any other and
leaves the empty NORMAL structure, and reports BAD_MODE in NORMAL. An unspecified cursor: nothing is said of it. -/
def Obligations.RestoreCommitChecksPayload : Prop :=
  decode 0x0000000D#32 = .command .restoreCommit ∧
  ∀ s : State,
    (s.mode = .normal → ∃ t, exec .restoreCommit s = .next t ∧ OnlyFails s t .badMode) ∧
    (s.mode = .restoring → (s.arg1.toNat ≠ s.count ∨ (0 < s.cap ∧ s.cap ≤ s.arg0.toNat)) →
      ∃ t, exec .restoreCommit s = .next t ∧ Failed s t .restoreReject ∧ EmptyIn t .normal ∧ KeepsInputs s t ∧
        t.result = s.result ∧ t.status.restoring = false) ∧
    (s.mode = .restoring → s.arg1.toNat = s.count → (0 < s.cap → s.arg0.toNat < s.cap) →
      ∃ t, exec .restoreCommit s = .next t ∧ Succeeded s t false ∧ KeepsInputs s t ∧ KeepsBuffer s t ∧
        t.count = s.count ∧ t.mode = .normal ∧ t.status.restoring = false ∧ t.result = s.result ∧
        (0 < s.cap → t.cursor = s.arg0.toNat ∧ t.draws = s.draws))

/-- 44_persist.md R155: restoring the payload saved from a NORMAL structure, from any state of an engine with the same
parameters, succeeds and gives back buffer, L, count and, with a non-zero capacity, cursor. That the storage is equal as
data, and not only byte by byte, rests on the model's canonical form (notes/assumptions/9.md). -/
def Obligations.RestoreGivesBackSavedStructure : Prop :=
  ∀ s r : State, Inv s → s.mode = .normal → r.config = s.config →
    ∃ t, restoreRun s.bytes (zext32 s.cursor) (zext32 s.count) r = some t ∧
      KeepsBuffer s t ∧ t.buf = s.buf ∧ t.count = s.count ∧ t.mode = .normal ∧ (0 < s.cap → t.cursor = s.cursor)

/-! ## Invariants and safety -/

/-- 10_state.md R45: every step keeps the invariants. -/
def Obligations.StepKeepsInvariants : Prop :=
  ∀ s t : State, Inv s → step s = .next t → Inv t

/-- 10_state.md R34 to R37, R40: every step keeps the fields of STATUS consistent. -/
def Obligations.StepKeepsStatusConsistent : Prop :=
  ∀ s t : State, StatusInv s.status → step s = .next t → StatusInv t.status

/-- 10_state.md R45, R48: the invariants hold after reset, in every configuration. -/
def Obligations.ResetMeetsInvariants : Prop :=
  (∀ c : Config, c.wf = true → Inv (State.resetOf c) ∧ StatusInv (State.resetOf c).status) ∧ Inv State.reset

/-- 00_scope.md R11, 20_memory.md R60: every accepted command completes in the engine's one step; no command blocks, faults
or is refused. -/
def Obligations.EveryCommandCompletes : Prop :=
  ∀ s : State, Inv s → s.status.busy = true →
    ∃ t, step s.engineNext = .next t ∧ t.status.busy = false ∧ t.status.done = true

/-- 20_memory.md R54, R58: from a state that meets the invariants a step fails only where the host's next access is one
the interface does not admit. That a turn with nothing to do is a next state too is the model's choice
(notes/assumptions/17.md). -/
def Obligations.OnlyForeignAccessesStop : Prop :=
  ∀ s : State, Inv s → (∀ op, s.host.head? = some op → op.wf s.config = true) → ∃ t, step s = .next t

/-- The model's storage: two canonical storages whose bytes read the same are the same data. -/
def Obligations.CanonicalStorageIsDeterminedByItsBytes : Prop :=
  ∀ m m' : Memory, Memory.wf m = true → Memory.wf m' = true → (∀ a, memRead m a = memRead m' a) → m = m'
end

