-- ==== Sys2Proof/Laws/Flags.lean ====
section
/-! SUPPORT. Where each field stands in the STATUS word (10_state.md R33). -/

namespace Sys2Proof.Machine

variable (a b c d e f : Bool) (k : BitVec 4)

theorem statusWord_busy : (statusWord a b c d e f k).getLsbD 0 = a := by
  simp only [statusWord, BitVec.getLsbD_append]; simp

theorem statusWord_done : (statusWord a b c d e f k).getLsbD 1 = b := by
  simp only [statusWord, BitVec.getLsbD_append]; simp

theorem statusWord_err : (statusWord a b c d e f k).getLsbD 2 = c := by
  simp only [statusWord, BitVec.getLsbD_append]; simp

theorem statusWord_notFound : (statusWord a b c d e f k).getLsbD 3 = d := by
  simp only [statusWord, BitVec.getLsbD_append]; simp

theorem statusWord_restoring : (statusWord a b c d e f k).getLsbD 4 = e := by
  simp only [statusWord, BitVec.getLsbD_append]; simp

theorem statusWord_ovr : (statusWord a b c d e f k).getLsbD 5 = f := by
  simp only [statusWord, BitVec.getLsbD_append]; simp

theorem statusWord_code : (statusWord a b c d e f k).extractLsb' 8 4 = k := by
  cases a <;> cases b <;> cases c <;> cases d <;> cases e <;> cases f <;> (revert k; decide)

theorem statusWord_reserved :
    (statusWord a b c d e f k).extractLsb' 6 2 = 0#2 ∧ (statusWord a b c d e f k).extractLsb' 12 20 = 0#20 := by
  cases a <;> cases b <;> cases c <;> cases d <;> cases e <;> cases f <;> (revert k; decide)

end Sys2Proof.Machine
end

