-- ==== Sys2Proof/Laws/Memory.lean ====
section
/-! SUPPORT. Laws of the canonical storage: read after write, the frame of a write, the canonical form is kept, and equal
contents are equal data. -/

namespace Sys2Proof.Machine

@[simp] theorem memRead_nil (a : Nat) : memRead [] a = unlistedByte := rfl

@[simp] theorem memory_wf_nil : Memory.wf [] = true := rfl

/-- The canonical form of a listed cell and the rest, as propositions. -/
theorem memory_wf_cons {a : Nat} {v : Byte} {m : Memory} :
    Memory.wf ((a, v) :: m) = true ↔ v ≠ unlistedByte ∧ (∀ c ∈ m, a < c.1) ∧ Memory.wf m = true := by
  simp [Memory.wf, and_assoc]

/-- An address no cell has reads as the unlisted byte. -/
theorem memRead_absent {m : Memory} {a : Nat} (h : ∀ c ∈ m, c.1 ≠ a) : memRead m a = unlistedByte := by
  induction m with
  | nil => rfl
  | cons c m ih =>
    have h1 : ¬ a = c.1 := fun e => h c (by simp) e.symm
    simp only [memRead, if_neg h1]
    exact ih fun d hd => h d (by simp [hd])

/-- A canonical storage lists an address exactly when its byte is not the unlisted one. -/
theorem memRead_present {m : Memory} (hm : Memory.wf m = true) {a : Nat} {v : Byte} (h : (a, v) ∈ m) :
    memRead m a = v ∧ v ≠ unlistedByte := by
  induction m with
  | nil => simp at h
  | cons c m ih =>
    obtain ⟨b, w⟩ := c
    obtain ⟨hw, hlt, hrest⟩ := memory_wf_cons.mp hm
    rcases List.mem_cons.mp h with e | hmem
    · cases e; exact ⟨by simp [memRead], hw⟩
    · have : ¬ a = b := by have := hlt _ hmem; simp at this; omega
      simpa [memRead, this] using ih hrest hmem

/-- A write leaves every other byte as it was. -/
theorem memRead_memWrite_other (m : Memory) {a a' : Nat} (v : Byte) (h : a' ≠ a) :
    memRead (memWrite m a v) a' = memRead m a' := by
  induction m with
  | nil =>
    simp only [memWrite]
    split <;> simp [memRead, h]
  | cons c m ih =>
    obtain ⟨b, w⟩ := c
    simp only [memWrite]
    split
    · split <;> simp [memRead, h]
    · split
      · rename_i hab; subst hab; split <;> simp [memRead, h]
      · simp [memRead, ih]

/-- A byte written to canonical storage reads back. -/
theorem memRead_memWrite_same {m : Memory} (hm : Memory.wf m = true) (a : Nat) (v : Byte) :
    memRead (memWrite m a v) a = v := by
  induction m with
  | nil => simp only [memWrite]; split <;> simp_all [memRead]
  | cons c m ih =>
    obtain ⟨b, w⟩ := c
    obtain ⟨_, hlt, hrest⟩ := memory_wf_cons.mp hm
    simp only [memWrite]
    split
    · rename_i hab
      split
      · rename_i hv
        rw [hv]
        refine memRead_absent fun d hd => ?_
        rcases List.mem_cons.mp hd with e | hmem
        · subst e; simp; omega
        · have := hlt d hmem; omega
      · simp [memRead]
    · split
      · rename_i hab
        split
        · rename_i hv
          rw [hv]
          exact memRead_absent fun d hd => by have := hlt d hd; omega
        · simp [memRead]
      · rename_i hne
        simp [memRead, hne, ih hrest]

/-- Both read laws of a write at once. -/
theorem memRead_memWrite {m : Memory} (hm : Memory.wf m = true) (a a' : Nat) (v : Byte) :
    memRead (memWrite m a v) a' = if a' = a then v else memRead m a' := by
  split
  · rename_i h; rw [h, memRead_memWrite_same hm]
  · rename_i h; exact memRead_memWrite_other m v h

/-- A write lists only what was listed and the address written. -/
theorem mem_memWrite {m : Memory} {a : Nat} {v : Byte} {c : Host.Cell} (h : c ∈ memWrite m a v) : c ∈ m ∨ c.1 = a := by
  induction m with
  | nil =>
    simp only [memWrite] at h
    split at h <;> simp_all
  | cons d m ih =>
    obtain ⟨b, w⟩ := d
    simp only [memWrite] at h
    split at h
    · split at h
      · exact .inl h
      · exact (List.mem_cons.mp h).elim (fun e => .inr (by rw [e])) .inl
    · split at h
      · split at h
        · exact .inl (List.mem_cons_of_mem _ h)
        · exact (List.mem_cons.mp h).elim (fun e => .inr (by rw [e])) fun hm => .inl (List.mem_cons_of_mem _ hm)
      · rcases List.mem_cons.mp h with e | hm
        · exact .inl (by simp [e])
        · exact (ih hm).imp_left (List.mem_cons_of_mem _)

/-- Every write keeps the canonical form. -/
theorem memory_wf_memWrite {m : Memory} (hm : Memory.wf m = true) (a : Nat) (v : Byte) :
    Memory.wf (memWrite m a v) = true := by
  induction m with
  | nil =>
    simp only [memWrite]
    split
    · rfl
    · rename_i hv; exact memory_wf_cons.mpr ⟨hv, by simp, rfl⟩
  | cons c m ih =>
    obtain ⟨b, w⟩ := c
    obtain ⟨hw, hlt, hrest⟩ := memory_wf_cons.mp hm
    simp only [memWrite]
    split
    · rename_i hab
      split
      · exact hm
      · rename_i hv
        refine memory_wf_cons.mpr ⟨hv, fun d hd => ?_, hm⟩
        rcases List.mem_cons.mp hd with e | hmem
        · subst e; exact hab
        · exact hab.trans (hlt d hmem)
    · rename_i hab
      split
      · rename_i heq
        split
        · exact hrest
        · rename_i hv
          exact memory_wf_cons.mpr ⟨hv, fun d hd => by have := hlt d hd; omega, hrest⟩
      · rename_i hne
        refine memory_wf_cons.mpr ⟨hw, fun d hd => ?_, ih hrest⟩
        rcases mem_memWrite hd with hmem | e
        · exact hlt d hmem
        · omega

end Sys2Proof.Machine
end

