-- ==== Sys2Proof/Laws/Popcount.lean ====
section
/-! SUPPORT. The popcount ROM is the popcount (40_popcount.md R91), and how one bit of a byte changes its popcount. -/

namespace Sys2Proof.Machine

/-- A fact about every byte, checked byte by byte. -/
theorem byte_forall {P : Byte → Prop} [DecidablePred P] (h : ∀ n : Fin 256, P (BitVec.ofFin n)) (v : Byte) : P v :=
  h v.toFin

/-- R91: the listing is the popcount of each byte value. -/
@[simp] theorem popcnt_toNat (v : Byte) : (popcnt v).toNat = popcount8 v :=
  byte_forall (P := fun v => (popcnt v).toNat = popcount8 v) (by decide +kernel) v

theorem popcount8_le (v : Byte) : popcount8 v ≤ 8 :=
  List.countP_le_length.trans_eq List.length_range

theorem popcount8_zero : popcount8 0 = 0 := by decide

theorem getLsbD_byteSet (v : Byte) (b b' : Nat) (hb : b < 8) :
    (byteSet v b).getLsbD b' = (decide (b' = b) || v.getLsbD b') := by
  rw [byteSet, BitVec.getLsbD_or, BitVec.getLsbD_shiftLeft]
  rcases Nat.lt_or_ge b' 8 with h | h
  · rcases lt_trichotomy b' b with h1 | h1 | h1
    · simp [h1, h, Nat.ne_of_lt h1]
    · subst h1; simp [h]
    · have : b' - b ≠ 0 := by omega
      simp [h, h1.ne', Nat.not_lt.mpr h1.le, BitVec.getLsbD_one, this]
  · have : b' ≠ b := by omega
    simp [this, Nat.not_lt.mpr h]

theorem getLsbD_byteClear (v : Byte) (b b' : Nat) (hb : b < 8) :
    (byteClear v b).getLsbD b' = (decide (b' ≠ b) && v.getLsbD b') := by
  rw [byteClear, BitVec.getLsbD_and, BitVec.getLsbD_not, BitVec.getLsbD_shiftLeft]
  rcases Nat.lt_or_ge b' 8 with h | h
  · rcases lt_trichotomy b' b with h1 | h1 | h1
    · simp [h1, h, Nat.ne_of_lt h1]
    · subst h1; simp [h]
    · have : b' - b ≠ 0 := by omega
      simp [h, h1.ne', Nat.not_lt.mpr h1.le, BitVec.getLsbD_one, this]
  · simp [BitVec.getLsbD_of_ge _ _ h]

/-- Counting over the bits after one of them turned 1. -/
theorem countP_update_true {p q : Nat → Bool} {b : Nat} (hp : p b = false) (hq : q b = true) (n : Nat)
    (h : ∀ x, x ≠ b → q x = p x) (hb : b < n) : (List.range n).countP q = (List.range n).countP p + 1 := by
  induction n with
  | zero => omega
  | succ n ih =>
    rw [List.range_succ, List.countP_append, List.countP_append]
    rcases Nat.lt_or_ge b n with hlt | hge
    · rw [ih hlt]
      simp [List.countP_cons, h n (by omega)]
      omega
    · have e : b = n := by omega
      subst e
      have : (List.range b).countP q = (List.range b).countP p :=
        List.countP_congr fun x hx => by rw [h x (by have := List.mem_range.mp hx; omega)]
      simp [hp, hq, this]

theorem popcount8_byteSet {v : Byte} {b : Nat} (hb : b < 8) (h : v.getLsbD b = false) :
    popcount8 (byteSet v b) = popcount8 v + 1 := by
  refine countP_update_true (b := b) h ?_ 8 (fun x hx => ?_) hb <;> rw [getLsbD_byteSet _ _ _ hb]
  · simp
  · simp [hx]

theorem popcount8_byteClear {v : Byte} {b : Nat} (hb : b < 8) (h : v.getLsbD b = true) :
    popcount8 (byteClear v b) + 1 = popcount8 v := by
  refine (countP_update_true (b := b) ?_ h 8 (fun x hx => ?_) hb).symm <;> rw [getLsbD_byteClear _ _ _ hb]
  · simp
  · simp [hx]

end Sys2Proof.Machine
end

