-- ==== Sys2Proof/Laws/State.lean ====
section
/-! SUPPORT. One lemma per field per update of the state, and the fields of STATUS after acceptance and completion. -/

namespace Sys2Proof.Machine

variable (s : State)


/-! `writeByte` -/

@[simp] theorem State.writeByte_config (B : Nat) (v : Byte) : (s.writeByte B v).config = s.config := rfl
@[simp] theorem State.writeByte_len (B : Nat) (v : Byte) : (s.writeByte B v).len = s.len := rfl
@[simp] theorem State.writeByte_buf (B : Nat) (v : Byte) : (s.writeByte B v).buf = memWrite s.buf B v := rfl
@[simp] theorem State.writeByte_cursor (B : Nat) (v : Byte) : (s.writeByte B v).cursor = s.cursor := rfl
@[simp] theorem State.writeByte_count (B : Nat) (v : Byte) : (s.writeByte B v).count = s.count := rfl
@[simp] theorem State.writeByte_mode (B : Nat) (v : Byte) : (s.writeByte B v).mode = s.mode := rfl
@[simp] theorem State.writeByte_cmdw (B : Nat) (v : Byte) : (s.writeByte B v).cmdw = s.cmdw := rfl
@[simp] theorem State.writeByte_arg0 (B : Nat) (v : Byte) : (s.writeByte B v).arg0 = s.arg0 := rfl
@[simp] theorem State.writeByte_arg1 (B : Nat) (v : Byte) : (s.writeByte B v).arg1 = s.arg1 := rfl
@[simp] theorem State.writeByte_result (B : Nat) (v : Byte) : (s.writeByte B v).result = s.result := rfl
@[simp] theorem State.writeByte_status (B : Nat) (v : Byte) : (s.writeByte B v).status = s.status := rfl
@[simp] theorem State.writeByte_draws (B : Nat) (v : Byte) : (s.writeByte B v).draws = s.draws := rfl
@[simp] theorem State.writeByte_host (B : Nat) (v : Byte) : (s.writeByte B v).host = s.host := rfl
@[simp] theorem State.writeByte_turns (B : Nat) (v : Byte) : (s.writeByte B v).turns = s.turns := rfl
@[simp] theorem State.writeByte_reads (B : Nat) (v : Byte) : (s.writeByte B v).reads = s.reads := rfl

/-! `bufAppend` -/

@[simp] theorem State.bufAppend_config (v : Byte) : (s.bufAppend v).config = s.config := rfl
@[simp] theorem State.bufAppend_len (v : Byte) : (s.bufAppend v).len = s.len + 1 := rfl
@[simp] theorem State.bufAppend_buf (v : Byte) : (s.bufAppend v).buf = memWrite s.buf s.len v := rfl
@[simp] theorem State.bufAppend_cursor (v : Byte) : (s.bufAppend v).cursor = s.cursor := rfl
@[simp] theorem State.bufAppend_count (v : Byte) : (s.bufAppend v).count = s.count := rfl
@[simp] theorem State.bufAppend_mode (v : Byte) : (s.bufAppend v).mode = s.mode := rfl
@[simp] theorem State.bufAppend_cmdw (v : Byte) : (s.bufAppend v).cmdw = s.cmdw := rfl
@[simp] theorem State.bufAppend_arg0 (v : Byte) : (s.bufAppend v).arg0 = s.arg0 := rfl
@[simp] theorem State.bufAppend_arg1 (v : Byte) : (s.bufAppend v).arg1 = s.arg1 := rfl
@[simp] theorem State.bufAppend_result (v : Byte) : (s.bufAppend v).result = s.result := rfl
@[simp] theorem State.bufAppend_status (v : Byte) : (s.bufAppend v).status = s.status := rfl
@[simp] theorem State.bufAppend_draws (v : Byte) : (s.bufAppend v).draws = s.draws := rfl
@[simp] theorem State.bufAppend_host (v : Byte) : (s.bufAppend v).host = s.host := rfl
@[simp] theorem State.bufAppend_turns (v : Byte) : (s.bufAppend v).turns = s.turns := rfl
@[simp] theorem State.bufAppend_reads (v : Byte) : (s.bufAppend v).reads = s.reads := rfl

/-! `setbit` -/

@[simp] theorem State.setbit_config (i : Nat) : (s.setbit i).config = s.config := rfl
@[simp] theorem State.setbit_len (i : Nat) : (s.setbit i).len = s.len := rfl
@[simp] theorem State.setbit_buf (i : Nat) : (s.setbit i).buf = memWrite s.buf (i / 8) (byteSet (s.memByte (i / 8)) (i % 8)) := rfl
@[simp] theorem State.setbit_cursor (i : Nat) : (s.setbit i).cursor = s.cursor := rfl
@[simp] theorem State.setbit_count (i : Nat) : (s.setbit i).count = s.count := rfl
@[simp] theorem State.setbit_mode (i : Nat) : (s.setbit i).mode = s.mode := rfl
@[simp] theorem State.setbit_cmdw (i : Nat) : (s.setbit i).cmdw = s.cmdw := rfl
@[simp] theorem State.setbit_arg0 (i : Nat) : (s.setbit i).arg0 = s.arg0 := rfl
@[simp] theorem State.setbit_arg1 (i : Nat) : (s.setbit i).arg1 = s.arg1 := rfl
@[simp] theorem State.setbit_result (i : Nat) : (s.setbit i).result = s.result := rfl
@[simp] theorem State.setbit_status (i : Nat) : (s.setbit i).status = s.status := rfl
@[simp] theorem State.setbit_draws (i : Nat) : (s.setbit i).draws = s.draws := rfl
@[simp] theorem State.setbit_host (i : Nat) : (s.setbit i).host = s.host := rfl
@[simp] theorem State.setbit_turns (i : Nat) : (s.setbit i).turns = s.turns := rfl
@[simp] theorem State.setbit_reads (i : Nat) : (s.setbit i).reads = s.reads := rfl

/-! `clearbit` -/

@[simp] theorem State.clearbit_config (i : Nat) : (s.clearbit i).config = s.config := rfl
@[simp] theorem State.clearbit_len (i : Nat) : (s.clearbit i).len = s.len := rfl
@[simp] theorem State.clearbit_buf (i : Nat) : (s.clearbit i).buf = memWrite s.buf (i / 8) (byteClear (s.memByte (i / 8)) (i % 8)) := rfl
@[simp] theorem State.clearbit_cursor (i : Nat) : (s.clearbit i).cursor = s.cursor := rfl
@[simp] theorem State.clearbit_count (i : Nat) : (s.clearbit i).count = s.count := rfl
@[simp] theorem State.clearbit_mode (i : Nat) : (s.clearbit i).mode = s.mode := rfl
@[simp] theorem State.clearbit_cmdw (i : Nat) : (s.clearbit i).cmdw = s.cmdw := rfl
@[simp] theorem State.clearbit_arg0 (i : Nat) : (s.clearbit i).arg0 = s.arg0 := rfl
@[simp] theorem State.clearbit_arg1 (i : Nat) : (s.clearbit i).arg1 = s.arg1 := rfl
@[simp] theorem State.clearbit_result (i : Nat) : (s.clearbit i).result = s.result := rfl
@[simp] theorem State.clearbit_status (i : Nat) : (s.clearbit i).status = s.status := rfl
@[simp] theorem State.clearbit_draws (i : Nat) : (s.clearbit i).draws = s.draws := rfl
@[simp] theorem State.clearbit_host (i : Nat) : (s.clearbit i).host = s.host := rfl
@[simp] theorem State.clearbit_turns (i : Nat) : (s.clearbit i).turns = s.turns := rfl
@[simp] theorem State.clearbit_reads (i : Nat) : (s.clearbit i).reads = s.reads := rfl

/-! `setResult` -/

@[simp] theorem State.setResult_config (v : Nat) : (s.setResult v).config = s.config := rfl
@[simp] theorem State.setResult_len (v : Nat) : (s.setResult v).len = s.len := rfl
@[simp] theorem State.setResult_buf (v : Nat) : (s.setResult v).buf = s.buf := rfl
@[simp] theorem State.setResult_cursor (v : Nat) : (s.setResult v).cursor = s.cursor := rfl
@[simp] theorem State.setResult_count (v : Nat) : (s.setResult v).count = s.count := rfl
@[simp] theorem State.setResult_mode (v : Nat) : (s.setResult v).mode = s.mode := rfl
@[simp] theorem State.setResult_cmdw (v : Nat) : (s.setResult v).cmdw = s.cmdw := rfl
@[simp] theorem State.setResult_arg0 (v : Nat) : (s.setResult v).arg0 = s.arg0 := rfl
@[simp] theorem State.setResult_arg1 (v : Nat) : (s.setResult v).arg1 = s.arg1 := rfl
@[simp] theorem State.setResult_result (v : Nat) : (s.setResult v).result = zext32 v := rfl
@[simp] theorem State.setResult_status (v : Nat) : (s.setResult v).status = s.status := rfl
@[simp] theorem State.setResult_draws (v : Nat) : (s.setResult v).draws = s.draws := rfl
@[simp] theorem State.setResult_host (v : Nat) : (s.setResult v).host = s.host := rfl
@[simp] theorem State.setResult_turns (v : Nat) : (s.setResult v).turns = s.turns := rfl
@[simp] theorem State.setResult_reads (v : Nat) : (s.setResult v).reads = s.reads := rfl

/-! `forgetCursor` -/

@[simp] theorem State.forgetCursor_config : s.forgetCursor.config = s.config := rfl
@[simp] theorem State.forgetCursor_len : s.forgetCursor.len = s.len := rfl
@[simp] theorem State.forgetCursor_buf : s.forgetCursor.buf = s.buf := rfl
@[simp] theorem State.forgetCursor_cursor : s.forgetCursor.cursor = (Config.freeWord s.draws).toNat := rfl
@[simp] theorem State.forgetCursor_count : s.forgetCursor.count = s.count := rfl
@[simp] theorem State.forgetCursor_mode : s.forgetCursor.mode = s.mode := rfl
@[simp] theorem State.forgetCursor_cmdw : s.forgetCursor.cmdw = s.cmdw := rfl
@[simp] theorem State.forgetCursor_arg0 : s.forgetCursor.arg0 = s.arg0 := rfl
@[simp] theorem State.forgetCursor_arg1 : s.forgetCursor.arg1 = s.arg1 := rfl
@[simp] theorem State.forgetCursor_result : s.forgetCursor.result = s.result := rfl
@[simp] theorem State.forgetCursor_status : s.forgetCursor.status = s.status := rfl
@[simp] theorem State.forgetCursor_draws : s.forgetCursor.draws = s.draws + 1 := rfl
@[simp] theorem State.forgetCursor_host : s.forgetCursor.host = s.host := rfl
@[simp] theorem State.forgetCursor_turns : s.forgetCursor.turns = s.turns := rfl
@[simp] theorem State.forgetCursor_reads : s.forgetCursor.reads = s.reads := rfl

/-! `discard` -/

@[simp] theorem State.discard_config (m : Mode) : (s.discard m).config = s.config := rfl
@[simp] theorem State.discard_len (m : Mode) : (s.discard m).len = 0 := rfl
@[simp] theorem State.discard_buf (m : Mode) : (s.discard m).buf = [] := rfl
@[simp] theorem State.discard_cursor (m : Mode) : (s.discard m).cursor = (Config.freeWord s.draws).toNat := rfl
@[simp] theorem State.discard_count (m : Mode) : (s.discard m).count = 0 := rfl
@[simp] theorem State.discard_mode (m : Mode) : (s.discard m).mode = m := rfl
@[simp] theorem State.discard_cmdw (m : Mode) : (s.discard m).cmdw = s.cmdw := rfl
@[simp] theorem State.discard_arg0 (m : Mode) : (s.discard m).arg0 = s.arg0 := rfl
@[simp] theorem State.discard_arg1 (m : Mode) : (s.discard m).arg1 = s.arg1 := rfl
@[simp] theorem State.discard_result (m : Mode) : (s.discard m).result = s.result := rfl
@[simp] theorem State.discard_status (m : Mode) : (s.discard m).status = s.status := rfl
@[simp] theorem State.discard_draws (m : Mode) : (s.discard m).draws = s.draws + 1 := rfl
@[simp] theorem State.discard_host (m : Mode) : (s.discard m).host = s.host := rfl
@[simp] theorem State.discard_turns (m : Mode) : (s.discard m).turns = s.turns := rfl
@[simp] theorem State.discard_reads (m : Mode) : (s.discard m).reads = s.reads := rfl

/-! `accept` -/

@[simp] theorem State.accept_config (w : Word) : (s.accept w).config = s.config := rfl
@[simp] theorem State.accept_len (w : Word) : (s.accept w).len = s.len := rfl
@[simp] theorem State.accept_buf (w : Word) : (s.accept w).buf = s.buf := rfl
@[simp] theorem State.accept_cursor (w : Word) : (s.accept w).cursor = s.cursor := rfl
@[simp] theorem State.accept_count (w : Word) : (s.accept w).count = s.count := rfl
@[simp] theorem State.accept_mode (w : Word) : (s.accept w).mode = s.mode := rfl
@[simp] theorem State.accept_cmdw (w : Word) : (s.accept w).cmdw = w := rfl
@[simp] theorem State.accept_arg0 (w : Word) : (s.accept w).arg0 = s.arg0 := rfl
@[simp] theorem State.accept_arg1 (w : Word) : (s.accept w).arg1 = s.arg1 := rfl
@[simp] theorem State.accept_result (w : Word) : (s.accept w).result = s.result := rfl
@[simp] theorem State.accept_status (w : Word) : (s.accept w).status = s.status.accepted := rfl
@[simp] theorem State.accept_draws (w : Word) : (s.accept w).draws = s.draws := rfl
@[simp] theorem State.accept_host (w : Word) : (s.accept w).host = s.host := rfl
@[simp] theorem State.accept_turns (w : Word) : (s.accept w).turns = s.turns := rfl
@[simp] theorem State.accept_reads (w : Word) : (s.accept w).reads = s.reads := rfl

/-! `complete` -/

@[simp] theorem State.complete_config (nf : Bool) : (s.complete nf).config = s.config := rfl
@[simp] theorem State.complete_len (nf : Bool) : (s.complete nf).len = s.len := rfl
@[simp] theorem State.complete_buf (nf : Bool) : (s.complete nf).buf = s.buf := rfl
@[simp] theorem State.complete_cursor (nf : Bool) : (s.complete nf).cursor = s.cursor := rfl
@[simp] theorem State.complete_count (nf : Bool) : (s.complete nf).count = s.count := rfl
@[simp] theorem State.complete_mode (nf : Bool) : (s.complete nf).mode = s.mode := rfl
@[simp] theorem State.complete_cmdw (nf : Bool) : (s.complete nf).cmdw = s.cmdw := rfl
@[simp] theorem State.complete_arg0 (nf : Bool) : (s.complete nf).arg0 = s.arg0 := rfl
@[simp] theorem State.complete_arg1 (nf : Bool) : (s.complete nf).arg1 = s.arg1 := rfl
@[simp] theorem State.complete_result (nf : Bool) : (s.complete nf).result = s.result := rfl
@[simp] theorem State.complete_status (nf : Bool) : (s.complete nf).status = s.status.success s.mode nf := rfl
@[simp] theorem State.complete_draws (nf : Bool) : (s.complete nf).draws = s.draws := rfl
@[simp] theorem State.complete_host (nf : Bool) : (s.complete nf).host = s.host := rfl
@[simp] theorem State.complete_turns (nf : Bool) : (s.complete nf).turns = s.turns := rfl
@[simp] theorem State.complete_reads (nf : Bool) : (s.complete nf).reads = s.reads := rfl

/-! `raise` -/

@[simp] theorem State.raise_config (c : ErrCode) : (s.raise c).config = s.config := rfl
@[simp] theorem State.raise_len (c : ErrCode) : (s.raise c).len = s.len := rfl
@[simp] theorem State.raise_buf (c : ErrCode) : (s.raise c).buf = s.buf := rfl
@[simp] theorem State.raise_cursor (c : ErrCode) : (s.raise c).cursor = s.cursor := rfl
@[simp] theorem State.raise_count (c : ErrCode) : (s.raise c).count = s.count := rfl
@[simp] theorem State.raise_mode (c : ErrCode) : (s.raise c).mode = s.mode := rfl
@[simp] theorem State.raise_cmdw (c : ErrCode) : (s.raise c).cmdw = s.cmdw := rfl
@[simp] theorem State.raise_arg0 (c : ErrCode) : (s.raise c).arg0 = s.arg0 := rfl
@[simp] theorem State.raise_arg1 (c : ErrCode) : (s.raise c).arg1 = s.arg1 := rfl
@[simp] theorem State.raise_result (c : ErrCode) : (s.raise c).result = s.result := rfl
@[simp] theorem State.raise_status (c : ErrCode) : (s.raise c).status = s.status.failure s.mode c := rfl
@[simp] theorem State.raise_draws (c : ErrCode) : (s.raise c).draws = s.draws := rfl
@[simp] theorem State.raise_host (c : ErrCode) : (s.raise c).host = s.host := rfl
@[simp] theorem State.raise_turns (c : ErrCode) : (s.raise c).turns = s.turns := rfl
@[simp] theorem State.raise_reads (c : ErrCode) : (s.raise c).reads = s.reads := rfl

/-! `answer` -/

@[simp] theorem State.answer_config (v : Nat) : (s.answer v).config = s.config := rfl
@[simp] theorem State.answer_len (v : Nat) : (s.answer v).len = s.len := rfl
@[simp] theorem State.answer_buf (v : Nat) : (s.answer v).buf = s.buf := rfl
@[simp] theorem State.answer_cursor (v : Nat) : (s.answer v).cursor = s.cursor := rfl
@[simp] theorem State.answer_count (v : Nat) : (s.answer v).count = s.count := rfl
@[simp] theorem State.answer_mode (v : Nat) : (s.answer v).mode = s.mode := rfl
@[simp] theorem State.answer_cmdw (v : Nat) : (s.answer v).cmdw = s.cmdw := rfl
@[simp] theorem State.answer_arg0 (v : Nat) : (s.answer v).arg0 = s.arg0 := rfl
@[simp] theorem State.answer_arg1 (v : Nat) : (s.answer v).arg1 = s.arg1 := rfl
@[simp] theorem State.answer_result (v : Nat) : (s.answer v).result = zext32 v := rfl
@[simp] theorem State.answer_status (v : Nat) : (s.answer v).status = s.status.success s.mode false := rfl
@[simp] theorem State.answer_draws (v : Nat) : (s.answer v).draws = s.draws := rfl
@[simp] theorem State.answer_host (v : Nat) : (s.answer v).host = s.host := rfl
@[simp] theorem State.answer_turns (v : Nat) : (s.answer v).turns = s.turns := rfl
@[simp] theorem State.answer_reads (v : Nat) : (s.answer v).reads = s.reads := rfl

/-! `grow` -/

@[simp] theorem State.grow_config : s.grow.config = s.config := rfl
@[simp] theorem State.grow_len : s.grow.len = s.len + 1 := rfl
@[simp] theorem State.grow_buf : s.grow.buf = memWrite s.buf s.len 0x01#8 := rfl
@[simp] theorem State.grow_cursor : s.grow.cursor = s.cap + 1 := rfl
@[simp] theorem State.grow_count : s.grow.count = s.count + 1 := rfl
@[simp] theorem State.grow_mode : s.grow.mode = s.mode := rfl
@[simp] theorem State.grow_cmdw : s.grow.cmdw = s.cmdw := rfl
@[simp] theorem State.grow_arg0 : s.grow.arg0 = s.arg0 := rfl
@[simp] theorem State.grow_arg1 : s.grow.arg1 = s.arg1 := rfl
@[simp] theorem State.grow_result : s.grow.result = zext32 s.cap := rfl
@[simp] theorem State.grow_status : s.grow.status = s.status.success s.mode false := rfl
@[simp] theorem State.grow_draws : s.grow.draws = s.draws := rfl
@[simp] theorem State.grow_host : s.grow.host = s.host := rfl
@[simp] theorem State.grow_turns : s.grow.turns = s.turns := rfl
@[simp] theorem State.grow_reads : s.grow.reads = s.reads := rfl

/-! `allocate` -/

@[simp] theorem State.allocate_config (i : Nat) : (s.allocate i).config = s.config := rfl
@[simp] theorem State.allocate_len (i : Nat) : (s.allocate i).len = s.len := rfl
@[simp] theorem State.allocate_buf (i : Nat) : (s.allocate i).buf = memWrite s.buf (i / 8) (byteSet (s.memByte (i / 8)) (i % 8)) := rfl
@[simp] theorem State.allocate_cursor (i : Nat) : (s.allocate i).cursor = (i + 1) % s.cap := rfl
@[simp] theorem State.allocate_count (i : Nat) : (s.allocate i).count = s.count + 1 := rfl
@[simp] theorem State.allocate_mode (i : Nat) : (s.allocate i).mode = s.mode := rfl
@[simp] theorem State.allocate_cmdw (i : Nat) : (s.allocate i).cmdw = s.cmdw := rfl
@[simp] theorem State.allocate_arg0 (i : Nat) : (s.allocate i).arg0 = s.arg0 := rfl
@[simp] theorem State.allocate_arg1 (i : Nat) : (s.allocate i).arg1 = s.arg1 := rfl
@[simp] theorem State.allocate_result (i : Nat) : (s.allocate i).result = zext32 i := rfl
@[simp] theorem State.allocate_status (i : Nat) : (s.allocate i).status = s.status.success s.mode false := rfl
@[simp] theorem State.allocate_draws (i : Nat) : (s.allocate i).draws = s.draws := rfl
@[simp] theorem State.allocate_host (i : Nat) : (s.allocate i).host = s.host := rfl
@[simp] theorem State.allocate_turns (i : Nat) : (s.allocate i).turns = s.turns := rfl
@[simp] theorem State.allocate_reads (i : Nat) : (s.allocate i).reads = s.reads := rfl

/-! `overrun` -/

@[simp] theorem State.overrun_config : s.overrun.config = s.config := rfl
@[simp] theorem State.overrun_len : s.overrun.len = s.len := rfl
@[simp] theorem State.overrun_buf : s.overrun.buf = s.buf := rfl
@[simp] theorem State.overrun_cursor : s.overrun.cursor = s.cursor := rfl
@[simp] theorem State.overrun_count : s.overrun.count = s.count := rfl
@[simp] theorem State.overrun_mode : s.overrun.mode = s.mode := rfl
@[simp] theorem State.overrun_cmdw : s.overrun.cmdw = s.cmdw := rfl
@[simp] theorem State.overrun_arg0 : s.overrun.arg0 = s.arg0 := rfl
@[simp] theorem State.overrun_arg1 : s.overrun.arg1 = s.arg1 := rfl
@[simp] theorem State.overrun_result : s.overrun.result = s.result := rfl
@[simp] theorem State.overrun_status : s.overrun.status = { s.status with ovr := true } := rfl
@[simp] theorem State.overrun_draws : s.overrun.draws = s.draws := rfl
@[simp] theorem State.overrun_host : s.overrun.host = s.host := rfl
@[simp] theorem State.overrun_turns : s.overrun.turns = s.turns := rfl
@[simp] theorem State.overrun_reads : s.overrun.reads = s.reads := rfl

/-! `assertReset` -/

@[simp] theorem State.assertReset_config : s.assertReset.config = s.config := rfl
@[simp] theorem State.assertReset_len : s.assertReset.len = 0 := rfl
@[simp] theorem State.assertReset_buf : s.assertReset.buf = [] := rfl
@[simp] theorem State.assertReset_cursor : s.assertReset.cursor = 0 := rfl
@[simp] theorem State.assertReset_count : s.assertReset.count = 0 := rfl
@[simp] theorem State.assertReset_mode : s.assertReset.mode = .normal := rfl
@[simp] theorem State.assertReset_cmdw : s.assertReset.cmdw = 0 := rfl
@[simp] theorem State.assertReset_arg0 : s.assertReset.arg0 = 0 := rfl
@[simp] theorem State.assertReset_arg1 : s.assertReset.arg1 = 0 := rfl
@[simp] theorem State.assertReset_result : s.assertReset.result = 0 := rfl
@[simp] theorem State.assertReset_status : s.assertReset.status = Status.reset := rfl
@[simp] theorem State.assertReset_draws : s.assertReset.draws = s.draws := rfl
@[simp] theorem State.assertReset_host : s.assertReset.host = s.host := rfl
@[simp] theorem State.assertReset_turns : s.assertReset.turns = s.turns := rfl
@[simp] theorem State.assertReset_reads : s.assertReset.reads = s.reads := rfl

/-! STATUS -/

variable (st : Status) (m : Mode) (nf : Bool) (c : ErrCode)


@[simp] theorem Status.accepted_busy : st.accepted.busy = true := rfl
@[simp] theorem Status.accepted_done : st.accepted.done = false := rfl
@[simp] theorem Status.accepted_err : st.accepted.err = false := rfl
@[simp] theorem Status.accepted_notFound : st.accepted.notFound = false := rfl
@[simp] theorem Status.accepted_restoring : st.accepted.restoring = st.restoring := rfl
@[simp] theorem Status.accepted_ovr : st.accepted.ovr = st.ovr := rfl
@[simp] theorem Status.accepted_errCode : st.accepted.errCode = .none := rfl

@[simp] theorem Status.success_busy : (st.success m nf).busy = false := rfl
@[simp] theorem Status.success_done : (st.success m nf).done = true := rfl
@[simp] theorem Status.success_err : (st.success m nf).err = false := rfl
@[simp] theorem Status.success_notFound : (st.success m nf).notFound = nf := rfl
@[simp] theorem Status.success_restoring : (st.success m nf).restoring = decide (m = .restoring) := rfl
@[simp] theorem Status.success_ovr : (st.success m nf).ovr = st.ovr := rfl
@[simp] theorem Status.success_errCode : (st.success m nf).errCode = .none := rfl

@[simp] theorem Status.failure_busy : (st.failure m c).busy = false := rfl
@[simp] theorem Status.failure_done : (st.failure m c).done = true := rfl
@[simp] theorem Status.failure_err : (st.failure m c).err = true := rfl
@[simp] theorem Status.failure_notFound : (st.failure m c).notFound = false := rfl
@[simp] theorem Status.failure_restoring : (st.failure m c).restoring = decide (m = .restoring) := rfl
@[simp] theorem Status.failure_ovr : (st.failure m c).ovr = st.ovr := rfl
@[simp] theorem Status.failure_errCode : (st.failure m c).errCode = c := rfl

end Sys2Proof.Machine
end

