-- ==== Sys2Proof/Laws/Buffer.lean ====
section
/-! SUPPORT. The slot buffer as bytes and as slots: what an append, a set and a clear do to each byte, each slot, the
rank and the total (00_scope.md R13, R14; 10_state.md R21). -/

namespace Sys2Proof.Machine

variable {s : State}

/-! ## Bytes -/

theorem State.memByte_bufAppend (hw : Memory.wf s.buf = true) (v : Byte) (a : Nat) :
    (s.bufAppend v).memByte a = if a = s.len then v else s.memByte a :=
  memRead_memWrite hw _ _ _

theorem State.memByte_writeByte (hw : Memory.wf s.buf = true) (B : Nat) (v : Byte) (a : Nat) :
    (s.writeByte B v).memByte a = if a = B then v else s.memByte a :=
  memRead_memWrite hw _ _ _

@[simp] theorem State.bytes_length (s : State) : s.bytes.length = s.len := by simp [State.bytes]

theorem State.bytes_getElem (s : State) {B : Nat} (h : B < s.bytes.length) : s.bytes[B] = s.memByte B := by
  simp [State.bytes]

/-- The buffer is its length and its bytes below it. -/
theorem State.bytes_congr {t : State} (hl : t.len = s.len) (h : ∀ a < s.len, t.memByte a = s.memByte a) :
    t.bytes = s.bytes := by
  simp only [State.bytes, hl]
  exact List.map_congr_left fun a ha => h a (List.mem_range.mp ha)

theorem State.bytes_bufAppend (hw : Memory.wf s.buf = true) (v : Byte) : (s.bufAppend v).bytes = s.bytes ++ [v] := by
  simp only [State.bytes, State.bufAppend_len, List.range_succ, List.map_append, List.map_cons, List.map_nil]
  rw [State.memByte_bufAppend hw, if_pos rfl]
  congr 1
  exact List.map_congr_left fun a ha => by
    rw [State.memByte_bufAppend hw, if_neg (by have := List.mem_range.mp ha; omega)]

/-! ## Slots -/

theorem State.slotbit_congr {t : State} {i : Nat} (h : t.memByte (i / 8) = s.memByte (i / 8)) :
    t.slotbit i = s.slotbit i := by simp [State.slotbit, h]

theorem slot_eq_iff (i j : Nat) : j = i ↔ j / 8 = i / 8 ∧ j % 8 = i % 8 := by omega

theorem State.slotbit_setbit (hw : Memory.wf s.buf = true) (i j : Nat) :
    (s.setbit i).slotbit j = (decide (j = i) || s.slotbit j) := by
  simp only [State.slotbit, State.setbit, State.memByte_writeByte hw]
  split
  · rename_i h
    rw [getLsbD_byteSet _ _ _ (Nat.mod_lt _ (by decide)), h]
    congr 1
    simp [slot_eq_iff i j, h]
  · rename_i h
    have : j ≠ i := fun e => h (by rw [e])
    simp [this]

theorem State.slotbit_clearbit (hw : Memory.wf s.buf = true) (i j : Nat) :
    (s.clearbit i).slotbit j = (decide (j ≠ i) && s.slotbit j) := by
  simp only [State.slotbit, State.clearbit, State.memByte_writeByte hw]
  split
  · rename_i h
    rw [getLsbD_byteClear _ _ _ (Nat.mod_lt _ (by decide)), h]
    congr 1
    simp [slot_eq_iff i j, h]
  · rename_i h
    have : j ≠ i := fun e => h (by rw [e])
    simp [this]

/-- The appended byte holds slots `cap .. cap + 7`; every other slot is as before. -/
theorem State.slotbit_bufAppend (hw : Memory.wf s.buf = true) (v : Byte) (j : Nat) :
    (s.bufAppend v).slotbit j = if j / 8 = s.len then v.getLsbD (j % 8) else s.slotbit j := by
  simp only [State.slotbit, State.memByte_bufAppend hw]
  split <;> rfl

/-! ## Rank and total -/

@[simp] theorem State.rank_zero (s : State) : s.rank 0 = 0 := rfl

theorem State.rank_succ (s : State) (i : Nat) : s.rank (i + 1) = s.rank i + (s.slotbit i).toNat := by
  simp only [State.rank, List.range_succ, List.countP_append]
  cases h : s.slotbit i <;> simp [h]

theorem State.rank_le (s : State) (i : Nat) : s.rank i ≤ i := List.countP_le_length.trans_eq List.length_range

theorem State.rank_mono (s : State) {i j : Nat} (h : i ≤ j) : s.rank i ≤ s.rank j := by
  induction h with
  | refl => exact le_rfl
  | step _ ih => rw [State.rank_succ]; omega

/-- The ranks at the two ends of an occupied slot differ, so ranks of occupied slots tell them apart. -/
theorem State.rank_lt (s : State) {i j : Nat} (hi : s.slotbit i = true) (h : i < j) : s.rank i < s.rank j := by
  have h1 := s.rank_mono (Nat.succ_le_of_lt h)
  rw [Nat.succ_eq_add_one, State.rank_succ, hi] at h1
  simp at h1
  omega

theorem State.rank_congr {t : State} {i : Nat} (h : ∀ j < i, t.slotbit j = s.slotbit j) : t.rank i = s.rank i :=
  List.countP_congr fun j hj => by rw [h j (List.mem_range.mp hj)]

/-- Inside byte `B` the rank counts the byte's lower bits. -/
theorem State.rank_in_byte (s : State) (B : Nat) {b : Nat} (hb : b ≤ 8) :
    s.rank (8 * B + b) = s.rank (8 * B) + (List.range b).countP fun x => (s.memByte B).getLsbD x := by
  induction b with
  | zero => simp
  | succ b ih =>
    have hs : s.slotbit (8 * B + b) = (s.memByte B).getLsbD b := by
      simp only [State.slotbit]
      rw [show (8 * B + b) / 8 = B by omega, show (8 * B + b) % 8 = b by omega]
    rw [← Nat.add_assoc, State.rank_succ, ih (by omega), hs, List.range_succ, List.countP_append]
    cases h : (s.memByte B).getLsbD b <;> simp [h, Nat.add_assoc]

theorem State.rank_byte (s : State) (B : Nat) : s.rank (8 * (B + 1)) = s.rank (8 * B) + popcount8 (s.memByte B) :=
  s.rank_in_byte B le_rfl

/-- R14: the sum of the popcounts of the first bytes is the rank at their end. -/
theorem State.sum_popcount (s : State) (n : Nat) :
    (((List.range n).map s.memByte).map popcount8).sum = s.rank (8 * n) := by
  induction n with
  | zero => rfl
  | succ n ih =>
    simp only [List.range_succ, List.map_append, List.map_cons, List.map_nil, List.sum_append, ih, List.sum_cons,
      List.sum_nil, State.rank_byte]
    omega

/-- R14: the total is the rank at the capacity. -/
theorem State.total_eq_rank (s : State) : s.total = s.rank s.cap := s.sum_popcount s.len

theorem State.total_le_cap (s : State) : s.total ≤ s.cap := s.total_eq_rank ▸ s.rank_le _

theorem State.total_congr {t : State} (hl : t.len = s.len) (h : ∀ a < s.len, t.memByte a = s.memByte a) :
    t.total = s.total := by
  rw [State.total, State.total, State.bytes_congr hl h]

theorem State.total_bufAppend (hw : Memory.wf s.buf = true) (v : Byte) :
    (s.bufAppend v).total = s.total + popcount8 v := by
  simp [State.total, State.bytes_bufAppend hw]

theorem State.total_setbit (hw : Memory.wf s.buf = true) {i : Nat} (hi : i < s.cap) (h : s.slotbit i = false) :
    (s.setbit i).total = s.total + 1 := by
  simp only [State.total_eq_rank]
  exact countP_update_true h (by simp [State.slotbit_setbit hw]) _
    (fun x hx => by simp [State.slotbit_setbit hw, hx]) hi

theorem State.total_clearbit (hw : Memory.wf s.buf = true) {i : Nat} (hi : i < s.cap) (h : s.slotbit i = true) :
    (s.clearbit i).total + 1 = s.total := by
  simp only [State.total_eq_rank]
  exact (countP_update_true (by simp [State.slotbit_clearbit hw]) h _
    (fun x hx => by simp [State.slotbit_clearbit hw, hx]) hi).symm

/-- A buffer that is not full has a free slot. -/
theorem State.exists_free (h : s.total < s.cap) : ∃ i < s.cap, s.slotbit i = false := by
  by_contra hn
  push Not at hn
  have : s.rank s.cap = s.cap := by
    simp only [State.rank]
    rw [List.countP_eq_length.mpr fun i hi => by simpa using hn i (List.mem_range.mp hi), List.length_range]
  rw [State.total_eq_rank] at h
  omega

/-- A full buffer has none. -/
theorem State.all_occupied (h : s.total = s.cap) {i : Nat} (hi : i < s.cap) : s.slotbit i = true := by
  by_contra hn
  have hf : s.slotbit i = false := by simpa using hn
  rw [State.total_eq_rank] at h
  have h1 := s.rank_succ i
  rw [hf] at h1
  have h2 : ∀ j, s.rank (i + 1 + j) ≤ s.rank (i + 1) + j := by
    intro j
    induction j with
    | zero => simp
    | succ j ih =>
      have := s.rank_succ (i + 1 + j)
      have hb : (s.slotbit (i + 1 + j)).toNat ≤ 1 := Bool.toNat_le _
      rw [← Nat.add_assoc]
      omega
  have h3 := h2 (s.cap - (i + 1))
  have h4 := s.rank_le i
  rw [show i + 1 + (s.cap - (i + 1)) = s.cap by omega] at h3
  simp at h1
  omega

end Sys2Proof.Machine
end

