-- ==== Sys2Proof/Laws/Exec.lean ====
section
/-! SUPPORT. What each shared operation and each command can do, said once: if it answers a next state, then one of these
cases holds. -/

namespace Sys2Proof.Machine

variable {s t : State}

@[simp] theorem next_inj {a b : State} :
    (Host.Outcome.next a : Host.Outcome State Fault Refusal) = .next b ↔ a = b :=
  ⟨fun h => by cases h; rfl, fun h => h ▸ rfl⟩

/-- The mode check (60_exceptions.md R182): the command's effect in its mode, BAD_MODE in the other. -/
theorem State.onlyIn_next {m : Mode} {k : Host.Outcome State Fault Refusal} (h : s.onlyIn m k = .next t) :
    (s.mode = m ∧ k = .next t) ∨ (s.mode ≠ m ∧ t = s.raise .badMode) := by
  unfold State.onlyIn at h
  split at h
  · exact .inl ⟨‹_›, h⟩
  · exact .inr ⟨‹_›, (next_inj.mp h).symm⟩

theorem State.onlyIn_pos {m : Mode} (k : Host.Outcome State Fault Refusal) (h : s.mode = m) : s.onlyIn m k = k :=
  if_pos h

theorem State.onlyIn_neg {m : Mode} (k : Host.Outcome State Fault Refusal) (h : s.mode ≠ m) :
    s.onlyIn m k = .next (s.raise .badMode) := if_neg h

/-- RESERVE's scan answers a free slot below the capacity, and every slot the scan passed before it is occupied. -/
theorem State.freeSlot_some {i : Nat} (h : s.freeSlot = some i) :
    i < s.cap ∧ s.slotbit i = false ∧
      ∃ k < s.cap, i = (s.cursor + k) % s.cap ∧ ∀ k' < k, s.slotbit ((s.cursor + k') % s.cap) = true := by
  obtain ⟨hp, as, bs, hsplit, hbefore⟩ := List.find?_eq_some_iff_append.mp h
  have hlen : as.length < s.cap := by
    have := congrArg List.length hsplit
    simp at this
    omega
  have hget : ∀ k (hk : k < s.cap), (as ++ i :: bs)[k]? = some ((s.cursor + k) % s.cap) := fun k hk => by
    rw [← hsplit]; simp [hk]
  have hi : i = (s.cursor + as.length) % s.cap := by simpa using hget as.length hlen
  refine ⟨hi ▸ Nat.mod_lt _ (by omega), by simpa using hp, as.length, hlen, hi, fun k hk => ?_⟩
  have := hget k (hk.trans hlen)
  rw [List.getElem?_append_left hk] at this
  simpa using hbefore _ (List.mem_of_getElem? this)

/-- RESERVE's scan answers nothing only where every slot is occupied. -/
theorem State.freeSlot_none (h : s.freeSlot = none) {i : Nat} (hi : i < s.cap) : s.slotbit i = true := by
  have := List.find?_eq_none.mp h
  let k := (i + (s.cap - s.cursor % s.cap)) % s.cap
  have hk : k < s.cap := Nat.mod_lt _ (by omega)
  have hki : (s.cursor + k) % s.cap = i := by
    have hc : s.cursor % s.cap < s.cap := Nat.mod_lt _ (by omega)
    rw [Nat.add_mod, Nat.mod_mod, ← Nat.add_mod]
    rw [Nat.add_mod, show (s.cursor % s.cap + (i + (s.cap - s.cursor % s.cap)) % s.cap) % s.cap
      = (s.cursor % s.cap + (i + (s.cap - s.cursor % s.cap))) % s.cap by rw [Nat.add_mod_mod],
      show s.cursor % s.cap + (i + (s.cap - s.cursor % s.cap)) = i + s.cap by omega, Nat.add_mod_right,
      Nat.mod_eq_of_lt hi]
  simpa [hki] using this i (List.mem_map.mpr ⟨k, List.mem_range.mpr hk, hki⟩)

theorem execReserve_next (h : execReserve s = .next t) :
    (s.mode ≠ .normal ∧ t = s.raise .badMode) ∨
    (s.mode = .normal ∧ s.count = s.cap ∧ s.len = s.config.maxBytes ∧ t = s.raise .full) ∨
    (s.mode = .normal ∧ s.count = s.cap ∧ s.len ≠ s.config.maxBytes ∧ t = s.grow) ∨
    (s.mode = .normal ∧ s.count ≠ s.cap ∧ ∃ i, s.freeSlot = some i ∧ t = s.allocate i) := by
  rcases State.onlyIn_next h with ⟨hm, hk⟩ | ⟨hm, rfl⟩
  · split at hk
    · split at hk
      · exact .inr (.inl ⟨hm, ‹_›, ‹_›, (next_inj.mp hk).symm⟩)
      · exact .inr (.inr (.inl ⟨hm, ‹_›, ‹_›, (next_inj.mp hk).symm⟩))
    · split at hk
      · exact .inr (.inr (.inr ⟨hm, ‹_›, _, ‹_›, (next_inj.mp hk).symm⟩))
      · cases hk
  · exact .inl ⟨hm, rfl⟩

theorem execRemove_next (h : execRemove s = .next t) :
    (s.mode ≠ .normal ∧ t = s.raise .badMode) ∨
    (s.mode = .normal ∧ s.cap ≤ s.argIndex ∧ t = s.raise .indexRange) ∨
    (s.mode = .normal ∧ s.argIndex < s.cap ∧ s.slotbit s.argIndex = true ∧
      t = State.complete { s.clearbit s.argIndex with count := s.count - 1 } false) ∨
    (s.mode = .normal ∧ s.argIndex < s.cap ∧ s.slotbit s.argIndex = false ∧ t = s.complete false) := by
  rcases State.onlyIn_next h with ⟨hm, hk⟩ | ⟨hm, rfl⟩
  · split at hk
    · exact .inr (.inl ⟨hm, ‹_›, (next_inj.mp hk).symm⟩)
    · split at hk
      · exact .inr (.inr (.inl ⟨hm, Nat.lt_of_not_le ‹_›, ‹_›, (next_inj.mp hk).symm⟩))
      · exact .inr (.inr (.inr ⟨hm, Nat.lt_of_not_le ‹_›, by simpa using ‹¬ _ = true›, (next_inj.mp hk).symm⟩))
  · exact .inl ⟨hm, rfl⟩

theorem execFindOrd_next (h : execFindOrd s = .next t) :
    (s.mode ≠ .normal ∧ t = s.raise .badMode) ∨
    (s.mode = .normal ∧ s.count ≤ s.argIndex ∧ t = s.raise .ordinalRange) ∨
    (s.mode = .normal ∧ s.argIndex < s.count ∧ ∃ i, slotOfOrdinal s.argIndex 0 0 s.bytes = some i ∧ t = s.answer i) := by
  rcases State.onlyIn_next h with ⟨hm, hk⟩ | ⟨hm, rfl⟩
  · split at hk
    · exact .inr (.inl ⟨hm, ‹_›, (next_inj.mp hk).symm⟩)
    · split at hk
      · exact .inr (.inr ⟨hm, Nat.lt_of_not_le ‹_›, _, ‹_›, (next_inj.mp hk).symm⟩)
      · cases hk
  · exact .inl ⟨hm, rfl⟩

theorem execFindNext_next (h : execFindNext s = .next t) :
    (s.mode ≠ .normal ∧ t = s.raise .badMode) ∨
    (s.mode = .normal ∧ ∃ i, s.nextOccupied s.argIndex = some i ∧ t = s.answer i) ∨
    (s.mode = .normal ∧ s.nextOccupied s.argIndex = none ∧ t = (s.setResult s.count).complete true) := by
  rcases State.onlyIn_next h with ⟨hm, hk⟩ | ⟨hm, rfl⟩
  · split at hk
    · exact .inr (.inl ⟨hm, _, ‹_›, (next_inj.mp hk).symm⟩)
    · exact .inr (.inr ⟨hm, ‹_›, (next_inj.mp hk).symm⟩)
  · exact .inl ⟨hm, rfl⟩

theorem execReadByte_next (h : execReadByte s = .next t) :
    (s.len ≤ s.argIndex ∧ t = s.raise .indexRange) ∨
    (s.argIndex < s.len ∧ t = s.answer (s.memByte s.argIndex).toNat) := by
  unfold execReadByte at h
  split at h
  · exact .inl ⟨‹_›, (next_inj.mp h).symm⟩
  · exact .inr ⟨Nat.lt_of_not_le ‹_›, (next_inj.mp h).symm⟩

theorem execRestoreByte_next (h : execRestoreByte s = .next t) :
    (s.mode ≠ .restoring ∧ t = s.raise .badMode) ∨
    (s.mode = .restoring ∧ s.len = s.config.maxBytes ∧ t = s.raise .full) ∨
    (s.mode = .restoring ∧ s.len ≠ s.config.maxBytes ∧
      t = State.complete { s.bufAppend s.argByte with count := s.count + (popcnt s.argByte).toNat } false) := by
  rcases State.onlyIn_next h with ⟨hm, hk⟩ | ⟨hm, rfl⟩
  · split at hk
    · exact .inr (.inl ⟨hm, ‹_›, (next_inj.mp hk).symm⟩)
    · exact .inr (.inr ⟨hm, ‹_›, (next_inj.mp hk).symm⟩)
  · exact .inl ⟨hm, rfl⟩

/-- R154's condition as a proposition. -/
theorem State.rejects_iff : s.rejects = true ↔ s.argSavedCount ≠ s.count ∨ (0 < s.cap ∧ s.cap ≤ s.argIndex) := by
  simp [State.rejects]

theorem execRestoreCommit_next (h : execRestoreCommit s = .next t) :
    (s.mode ≠ .restoring ∧ t = s.raise .badMode) ∨
    (s.mode = .restoring ∧ s.rejects = true ∧ t = (s.discard .normal).raise .restoreReject) ∨
    (s.mode = .restoring ∧ s.rejects = false ∧ t = s.adopt.complete false) := by
  rcases State.onlyIn_next h with ⟨hm, hk⟩ | ⟨hm, rfl⟩
  · split at hk
    · exact .inr (.inl ⟨hm, ‹_›, (next_inj.mp hk).symm⟩)
    · exact .inr (.inr ⟨hm, by simpa using ‹¬ _ = true›, (next_inj.mp hk).symm⟩)
  · exact .inl ⟨hm, rfl⟩

/-- R154's acceptance: with a capacity the cursor is ARG0's. -/
theorem State.adopt_pos (h : 0 < s.cap) : s.adopt = { s with mode := .normal, cursor := s.argIndex } := by
  simp [State.adopt, State.cap] at h ⊢
  omega

/-- R154's acceptance of the empty payload: the cursor is unspecified. -/
theorem State.adopt_zero (h : s.cap = 0) : s.adopt = State.forgetCursor { s with mode := .normal } := by
  have : s.len = 0 := by simp [State.cap] at h; exact h
  simp [State.adopt, State.cap, this]

end Sys2Proof.Machine
end

