-- ==== Sys2Proof/Laws/Step.lean ====
section
/-! SUPPORT. What a host access and a step can do, said once. -/

namespace Sys2Proof.Machine

variable {s t : State}

/-- A state with some other draw counter and some other record of reads. -/
def State.withObserved (s : State) (d : Nat) (rs : List ReadRecord) : State := { s with draws := d, reads := rs }

/-- A value or a draw changes at most the draw counter. -/
theorem State.valueOrDraw_snd (s : State) (hidden : Bool) (v : Word) :
    (s.valueOrDraw hidden v).2 = { s with draws := s.draws + hidden.toNat } := by
  cases hidden <;> rfl

/-- A register read changes at most the draw counter (20_memory.md R57). -/
theorem State.readReg_snd (s : State) (r : Reg) : ∃ d, (s.readReg r).2 = { s with draws := d } := by
  cases r with
  | status =>
    cases h : s.status.busy
    · exact ⟨s.draws, by simp [State.readReg, h]⟩
    · exact ⟨s.draws + 1, by simp [State.readReg, h, State.draw]⟩
  | result | count | capacity | cursor => exact ⟨_, State.valueOrDraw_snd s _ _⟩
  | cmd | arg0 | arg1 | param => exact ⟨s.draws, rfl⟩

theorem State.readOffset_snd (s : State) (off : Nat) : ∃ d, (s.readOffset off).2 = { s with draws := d } := by
  unfold State.readOffset
  split
  · exact s.readReg_snd _
  · exact ⟨s.draws, rfl⟩

/-- A recorded read changes the draw counter and the record, nothing else. -/
theorem State.recordRead_eq (s : State) (off : Nat) :
    ∃ d, s.recordRead off = s.withObserved d (s.reads ++ [{ offset := off, value := (s.readOffset off).1 }]) := by
  obtain ⟨d, hd⟩ := s.readOffset_snd off
  exact ⟨d, by simp [State.recordRead, hd, State.withObserved]⟩

/-- The state a write can leave: a dropped write, an accepted command, a new operand, OVR cleared, or no change. -/
theorem State.writeOffset_cases (s : State) (off : Nat) (v : Word) :
    s.writeOffset off v = s ∨
    (s.status.busy = true ∧ s.writeOffset off v = s.overrun) ∨
    (s.status.busy = false ∧
      (s.writeOffset off v = s.accept v ∨ s.writeOffset off v = { s with arg0 := v } ∨
        s.writeOffset off v = { s with arg1 := v })) ∨
    s.writeOffset off v = { s with status := { s.status with ovr := false } } := by
  unfold State.writeOffset
  split
  · rename_i r _
    cases hb : s.status.busy <;> cases r
    case true.status | false.status =>
      simp only [State.writeReg, State.writeStatus]
      split
      · exact .inr (.inr (.inr rfl))
      · exact .inl rfl
    all_goals simp [State.writeReg, hb]
  · exact .inl rfl

/-- What the host's turn can do: nothing, a write, a read, or one pass of a poll. -/
theorem State.hostTurn_next (h : s.hostTurn = .next t) :
    (s.host = [] ∧ t = s) ∨
    (∃ w addr v rest off, s.host = .write w addr v :: rest ∧ accessOffset s.config w addr = .ok off ∧
      t = ({ s with host := rest } : State).writeOffset off v) ∨
    (∃ w addr rest off, s.host = .read w addr :: rest ∧ accessOffset s.config w addr = .ok off ∧
      t = ({ s with host := rest } : State).recordRead off) ∨
    (∃ rest, s.host = .poll :: rest ∧ t = s.pollOnce rest) := by
  unfold State.hostTurn at h
  split at h
  · exact .inl ⟨‹_›, (next_inj.mp h).symm⟩
  · split at h
    · exact .inr (.inl ⟨_, _, _, _, _, ‹_›, ‹_›, (next_inj.mp h).symm⟩)
    · cases h
  · split at h
    · exact .inr (.inr (.inl ⟨_, _, _, _, ‹_›, ‹_›, (next_inj.mp h).symm⟩))
    · cases h
  · exact .inr (.inr (.inr ⟨_, ‹_›, (next_inj.mp h).symm⟩))

/-- Taking a turn changes the schedule and nothing else. -/
theorem State.takeTurn_snd (s : State) : ∃ ts, s.takeTurn.2 = { s with turns := ts } := by
  unfold State.takeTurn
  split
  · exact ⟨s.turns, rfl⟩
  · exact ⟨_, rfl⟩

/-- What a step can do: from `s` with its next turn taken, the host's turn, the engine's step, no engine step, or
reset. -/
theorem step_next (h : step s = .next t) :
    ∃ ts, (({ s with turns := ts } : State).hostTurn = .next t) ∨
      (s.status.busy = true ∧ engineStep ({ s with turns := ts } : State) = .next t) ∨
      t = ({ s with turns := ts } : State) ∨ t = ({ s with turns := ts } : State).assertReset := by
  obtain ⟨ts, hts⟩ := s.takeTurn_snd
  refine ⟨ts, ?_⟩
  unfold step at h
  split at h <;> rename_i heq <;> rw [heq] at hts <;> simp only at hts <;> subst hts
  · exact .inl h
  · unfold engineTurn at h
    split at h
    · exact .inr (.inl ⟨‹_›, h⟩)
    · exact .inr (.inr (.inl (next_inj.mp h).symm))
  · exact .inr (.inr (.inr (next_inj.mp h).symm))

/-- The engine's step performs the decoded command or completes with ILLEGAL_CMD. -/
theorem engineStep_next (h : engineStep s = .next t) :
    (∃ i, decode s.cmdw = .command i ∧ exec i s = .next t) ∨
    (∃ why, decode s.cmdw = .illegal why ∧ t = s.raise .illegalCmd) := by
  unfold engineStep at h
  split at h
  · exact .inl ⟨_, ‹_›, h⟩
  · exact .inr ⟨_, ‹_›, (next_inj.mp h).symm⟩

end Sys2Proof.Machine
end

