-- ==== Sys2Proof/Laws/Access.lean ====
section
/-! SUPPORT. The next step where a turn and an operation are given: one lemma per kind of turn and per kind of access. -/

namespace Sys2Proof.Machine

theorem step_hostNext (s : State) (op : BusOp) :
    step (s.hostNext op) = State.hostTurn { s with host := op :: s.host } := rfl

theorem step_engineNext (s : State) : step s.engineNext = engineTurn s := rfl

theorem step_resetNext (s : State) : step s.resetNext = .next s.assertReset := rfl

/-- The engine's turn with a command pending. -/
theorem engineTurn_busy {s : State} (h : s.status.busy = true) : engineTurn s = engineStep s := by simp [engineTurn, h]

theorem engineStep_command {s : State} {i : Instr} (h : decode s.cmdw = .command i) : engineStep s = exec i s := by
  simp [engineStep, State.fetch, h]

theorem engineStep_illegal {s : State} {why : Reject} (h : decode s.cmdw = .illegal why) :
    engineStep s = .next (s.raise .illegalCmd) := by
  simp [engineStep, State.fetch, h, execIllegal]

/-- A 32-bit aligned access of the window has its offset (20_memory.md R54). -/
theorem accessOffset_ok (c : Config) {off : Nat} (h : off < 256) (h4 : off % 4 = 0) :
    accessOffset c .w32 (c.base + off) = .ok off := by
  simp [accessOffset, Config.inWindow, Config.accessOk, h, h4]

/-- An admitted access has its offset, and no other access has one. -/
theorem accessOffset_eq_ok {c : Config} {w : Width} {addr off : Nat} :
    accessOffset c w addr = .ok off ↔ c.accessOk w addr = true ∧ off = addr - c.base := by
  unfold accessOffset
  by_cases hw : c.inWindow addr = true
  · by_cases ha : c.accessOk w addr = true
    · simp only [hw, ha, if_true, Except.ok.injEq, true_and]
      exact eq_comm
    · simp [hw, ha]
  · simp [hw, Config.accessOk]

theorem step_write (s : State) {off : Nat} (v : Word) (h : off < 256) (h4 : off % 4 = 0) :
    step (s.hostNext (.write .w32 (s.config.base + off) v)) = .next (s.writeOffset off v) := by
  rw [step_hostNext, State.hostTurn]
  simp only [accessOffset_ok _ h h4]

theorem step_read (s : State) {off : Nat} (h : off < 256) (h4 : off % 4 = 0) :
    step (s.hostNext (.read .w32 (s.config.base + off))) = .next (s.recordRead off) := by
  rw [step_hostNext, State.hostTurn]
  simp only [accessOffset_ok _ h h4]

theorem step_poll (s : State) :
    step (s.hostNext .poll) = .next (State.pollOnce { s with host := .poll :: s.host } s.host) := rfl

theorem regAt_regOffset (r : Reg) : regAt (regOffset r) = some r := by cases r <;> rfl

theorem regOffset_ok (r : Reg) : regOffset r < 256 ∧ regOffset r % 4 = 0 := by cases r <;> decide

theorem step_writeOf (s : State) (r : Reg) (v : Word) : step (s.hostNext (writeOf s r v)) = .next (s.writeReg v r) := by
  rw [writeOf, step_write _ _ (regOffset_ok r).1 (regOffset_ok r).2, State.writeOffset, regAt_regOffset]

theorem step_readOf (s : State) (r : Reg) :
    step (s.hostNext (readOf s r)) = .next ((s.readReg r).2.sawRead (regOffset r) (s.readReg r).1) := by
  rw [readOf, step_read _ (regOffset_ok r).1 (regOffset_ok r).2, State.recordRead, State.readOffset, regAt_regOffset]
  rfl

end Sys2Proof.Machine
end

