-- ==== Sys2Proof/Laws/PerInstr.lean ====
section
/-! SUPPORT. A fact about every command as syntax, command by command: its words decode to it and it is well formed. -/

namespace Sys2Proof.Laws.WordRoundTrip

/-- The command is well formed, its word has RZ zero (30_encoding.md R70), and the word and its bytes decode to it. -/
def Statement (i : Instr) : Prop :=
  i.wf = true ∧ fieldRZ (encode i) = 0 ∧ decode (encode i) = .command i ∧ decodeBytes (encodeBytes i) = .command i

theorem reserve : Statement .reserve := by unfold Statement; decide
theorem remove : Statement .remove := by unfold Statement; decide
theorem findOrd : Statement .findOrd := by unfold Statement; decide
theorem findNext : Statement .findNext := by unfold Statement; decide
theorem count : Statement .count := by unfold Statement; decide
theorem capacity : Statement .capacity := by unfold Statement; decide
theorem popcnt8 : Statement .popcnt8 := by unfold Statement; decide
theorem set : Statement .set := by unfold Statement; decide
theorem addRange : Statement .addRange := by unfold Statement; decide
theorem readByte : Statement .readByte := by unfold Statement; decide
theorem restoreBegin : Statement .restoreBegin := by unfold Statement; decide
theorem restoreByte : Statement .restoreByte := by unfold Statement; decide
theorem restoreCommit : Statement .restoreCommit := by unfold Statement; decide

end Sys2Proof.Laws.WordRoundTrip
end

