-- ==== Sys2Proof/Laws/Program.lean ====
section
/-! SUPPORT. Host programs and runs: what an operand line leaves alone, several steps in a row, one command of a run. -/

namespace Sys2Proof.Machine

variable (s : State)

/-- An operand line changes ARG0 or ARG1 and nothing else. -/
theorem State.storeOperand_eq (op : AsmOp) : ∃ a b, s.storeOperand op = { s with arg0 := a, arg1 := b } := by
  unfold State.storeOperand
  split <;> exact ⟨_, _, rfl⟩

/-- So do several of them. -/
theorem State.storeOperands_eq (ops : List AsmOp) :
    ∃ a b, ops.foldl State.storeOperand s = { s with arg0 := a, arg1 := b } := by
  induction ops generalizing s with
  | nil => exact ⟨_, _, rfl⟩
  | cons op ops ih =>
    obtain ⟨a, b, h⟩ := s.storeOperand_eq op
    obtain ⟨c, d, h'⟩ := ih (s.storeOperand op)
    exact ⟨c, d, by rw [List.foldl_cons, h', h]⟩

@[simp] theorem runFor_zero : runFor 0 s = .next s := rfl

/-- A first step that goes on leaves the rest of the run. -/
theorem runFor_succ {s t : State} (n : Nat) (h : step s = .next t) : runFor (n + 1) s = runFor n t := by
  rw [runFor, h]

@[simp] theorem performRun_nil : performRun [] s = some ([], s) := rfl

/-- The first command of a run that goes on leaves the rest of the run, and its slot in front if it is a RESERVE
without error. -/
theorem performRun_cons {s t u : State} {c : Issued} {rest : List Issued} {slots : List Nat}
    (h : exec c.cmd { s with arg0 := c.arg0, arg1 := c.arg1 } = .next t) (hr : performRun rest t = some (slots, u)) :
    performRun (c :: rest) s =
      some (if c.cmd = .reserve ∧ t.status.err = false then t.result.toNat :: slots else slots, u) := by
  rw [performRun, h]
  simp only [hr, Option.map_some]

end Sys2Proof.Machine
end

