-- ==== Sys2Proof/Tests/Slice0.lean ====
section
/-! SUPPORT. Tests: ill-formed terms that WellFormed refuses, words written out from the spec's encoding, at most two
one-step tests for each command with values from spec/95_test_vectors.md, and, for each statement with hypotheses, a
state that meets them (`witness_<statement>`). -/

namespace Sys2Proof.Tests

open Sys2Proof Sys2Proof.Machine

/-! ## Small states -/

/-- The cells of bytes laid out from `a` on; a byte 0x00 is not listed. -/
def cells : Nat → List Byte → Memory
  | _, [] => []
  | a, v :: rest => if v = 0 then cells (a + 1) rest else (a, v) :: cells (a + 1) rest

/-- An idle engine in 95_test_vectors.md's notation, with the base address 0x4000 and the operands given. -/
def eng (bytes : List Byte) (count cursor : Nat) (m : Mode) (a0 a1 : Word) (maxBytes : Nat) : State :=
  { State.resetOf { maxBytes := maxBytes, base := 0x4000 } with
    len := bytes.length, buf := cells 0 bytes, count := count, cursor := cursor, mode := m, arg0 := a0, arg1 := a1,
    status := { Status.reset with restoring := decide (m = .restoring) } }

/-- An idle engine with a word latched and BUSY = 1. -/
def pend (s : State) (w : Word) : State := s.accept w

/-- What a test looks at: buffer, count, mode, RESULT, STATUS. -/
def view : Host.Outcome State Fault Refusal → Option (List Byte × Nat × Mode × Word × Word)
  | .next t => some (t.bytes, t.count, t.mode, t.result, t.status.word)
  | .fault _ => none
  | .refused _ => none

/-- The cursor a step leaves. -/
def cursorOf : Host.Outcome State Fault Refusal → Option Nat
  | .next t => some t.cursor
  | .fault _ => none
  | .refused _ => none

/-- An outcome is a refusal with a given reason. -/
def refusedBy (r : Refusal) : Host.Outcome State Fault Refusal → Bool
  | .refused q => decide (q = r)
  | .next _ => false
  | .fault _ => false

/-- 95_test_vectors.md 2.5: occupied slots 4 to 9. -/
def six (m : Mode) (a0 a1 : Word) : State := eng [0xF0#8, 0x03#8] 6 5 m a0 a1 512

/-! ## WellFormed refuses ill-formed terms (00_scope.md R8, R10; 20_memory.md R54) -/

theorem test_wf_no_storage : Config.wf { maxBytes := 0, base := 0 } = false := by decide
theorem test_wf_too_much_storage : Config.wf { maxBytes := 2 ^ 28 + 1, base := 0 } = false := by decide
theorem test_wf_base_unaligned : Config.wf { maxBytes := 512, base := 0x4080 } = false := by decide
theorem test_wf_width :
    BusOp.wf { maxBytes := 512, base := 0x4000 } (.read .w16 0x4000) = false := by decide
theorem test_wf_alignment :
    BusOp.wf { maxBytes := 512, base := 0x4000 } (.write .w32 0x4002 1) = false := by decide
theorem test_wf_below_window :
    BusOp.wf { maxBytes := 512, base := 0x4000 } (.read .w32 0x3FFC) = false := by decide
theorem test_wf_above_window :
    BusOp.wf { maxBytes := 512, base := 0x4000 } (.read .w32 0x4100) = false := by decide
theorem test_wf_accepts : BusOp.wf { maxBytes := 512, base := 0x4000 } (.read .w32 0x40FC) = true := by decide
theorem test_wf_commands : Instr.wf .reserve = true ∧ Instr.wf .restoreCommit = true := by decide

/-! ## Words bit by bit: RZ 31:4, OPCODE 3:0 (30_encoding.md R70, R72) -/

theorem test_word_reserve : decode 0b0000000000000000000000000000_0001#32 = .command .reserve := by decide
theorem test_word_remove : decode 0b0000000000000000000000000000_0010#32 = .command .remove := by decide
theorem test_word_findOrd : decode 0b0000000000000000000000000000_0011#32 = .command .findOrd := by decide
theorem test_word_findNext : decode 0b0000000000000000000000000000_0100#32 = .command .findNext := by decide
theorem test_word_count : decode 0b0000000000000000000000000000_0101#32 = .command .count := by decide
theorem test_word_capacity : decode 0b0000000000000000000000000000_0110#32 = .command .capacity := by decide
theorem test_word_popcnt8 : decode 0b0000000000000000000000000000_0111#32 = .command .popcnt8 := by decide
theorem test_word_set : decode 0b0000000000000000000000000000_1000#32 = .command .set := by decide
theorem test_word_addRange : decode 0b0000000000000000000000000000_1001#32 = .command .addRange := by decide
theorem test_word_readByte : decode 0b0000000000000000000000000000_1010#32 = .command .readByte := by decide
theorem test_word_restoreBegin : decode 0b0000000000000000000000000000_1011#32 = .command .restoreBegin := by decide
theorem test_word_restoreByte : decode 0b0000000000000000000000000000_1100#32 = .command .restoreByte := by decide
theorem test_word_restoreCommit : decode 0b0000000000000000000000000000_1101#32 = .command .restoreCommit := by decide
theorem test_word_opcode_zero : decode 0b0000000000000000000000000000_0000#32 = .illegal .illegalOpcode := by decide
theorem test_word_opcode_e : decode 0b0000000000000000000000000000_1110#32 = .illegal .illegalOpcode := by decide
theorem test_word_opcode_f : decode 0b0000000000000000000000000000_1111#32 = .illegal .illegalOpcode := by decide
theorem test_word_rz_low : decode 0b0000000000000000000000000001_0001#32 = .illegal .reservedBits := by decide
theorem test_word_rz_high : decode 0b1000000000000000000000000000_0001#32 = .illegal .reservedBits := by decide
/-- 20_memory.md R53: the byte at the lowest address holds bits 7:0. -/
theorem test_bytes_little_endian :
    decodeBytes [0x0D#8, 0x00#8, 0x00#8, 0x00#8] = .command .restoreCommit ∧
    decodeBytes [0x00#8, 0x00#8, 0x00#8, 0x0D#8] = .illegal .reservedBits := by decide
theorem test_table_word : decodeTableWord 32 0xA = some .readByte ∧ decodeTableWord 32 0x1A = none := by decide

/-! ## One step of each command (95_test_vectors.md 2.1 to 2.8) -/

/-- 2.3 R6: the only free slot lies below the cursor. -/
theorem test_reserve_wraps :
    view (exec .reserve (eng [0xFB#8, 0xFF#8] 15 5 .normal 0 0 512)) =
        some ([0xFF#8, 0xFF#8], 16, .normal, 2#32, 0x00000002#32) ∧
      cursorOf (exec .reserve (eng [0xFB#8, 0xFF#8] 15 5 .normal 0 0 512)) = some 3 := by decide
/-- 2.3 R5: full, the cursor anywhere. -/
theorem test_reserve_grows :
    view (exec .reserve (eng [0xFF#8, 0xFF#8] 16 13 .normal 0 0 512)) =
        some ([0xFF#8, 0xFF#8, 0x01#8], 17, .normal, 16#32, 0x00000002#32) ∧
      cursorOf (exec .reserve (eng [0xFF#8, 0xFF#8] 16 13 .normal 0 0 512)) = some 17 := by decide
/-- 2.4 M5: the last slot. -/
theorem test_remove_last :
    view (exec .remove (eng [0xFF#8, 0x81#8] 10 9 .normal 15 0 512)) =
      some ([0xFF#8, 0x01#8], 9, .normal, 0#32, 0x00000002#32) := by decide
/-- 2.4 M6: an index of 2^31 or more. -/
theorem test_remove_range :
    view (exec .remove (eng [0xFF#8] 8 0 .normal 0xFFFFFFFF 0 512)) =
      some ([0xFF#8], 8, .normal, 0#32, 0x00000406#32) := by decide
/-- 2.5: the first byte skipped. -/
theorem test_find_ord_skips :
    view (exec .findOrd (six .normal 4 0)) = some ([0xF0#8, 0x03#8], 6, .normal, 8#32, 0x00000002#32) := by decide
/-- 2.5: the ordinal equal to the count. -/
theorem test_find_ord_range :
    view (exec .findOrd (six .normal 6 0)) = some ([0xF0#8, 0x03#8], 6, .normal, 0#32, 0x00000506#32) := by decide
/-- 2.6: nothing at or after the start. -/
theorem test_find_next_miss :
    view (exec .findNext (six .normal 10 0)) = some ([0xF0#8, 0x03#8], 6, .normal, 6#32, 0x0000000A#32) := by decide
/-- 2.6: two zero bytes skipped. -/
theorem test_find_next_skips :
    view (exec .findNext (eng [0x01#8, 0x00#8, 0x00#8, 0x40#8] 2 1 .normal 1 0 512)) =
      some ([0x01#8, 0x00#8, 0x00#8, 0x40#8], 2, .normal, 30#32, 0x00000002#32) := by decide
/-- 2.2: the accumulator in RESTORING. -/
theorem test_count_restoring :
    view (exec .count (eng [0xF0#8] 4 0 .restoring 0 0 512)) = some ([0xF0#8], 4, .restoring, 4#32, 0x00000012#32) := by
  decide
/-- 2.2. -/
theorem test_capacity :
    view (exec .capacity (eng [0xFF#8, 0x01#8] 9 9 .normal 0 0 512)) =
      some ([0xFF#8, 0x01#8], 9, .normal, 16#32, 0x00000002#32) := by decide
/-- 2.1. -/
theorem test_popcnt8 :
    view (exec .popcnt8 (eng [] 0 0 .normal 0x000000B5 0 512)) = some ([], 0, .normal, 5#32, 0x00000002#32) := by decide
/-- 2.1: bits 31:8 ignored. -/
theorem test_popcnt8_high_bits :
    view (exec .popcnt8 (eng [] 0 0 .normal 0xFFFFFF0F 0 512)) = some ([], 0, .normal, 4#32, 0x00000002#32) := by decide
/-- 2.8. -/
theorem test_set :
    view (exec .set (eng [0xFF#8] 8 0 .normal 3 0 512)) = some ([0xFF#8], 8, .normal, 0#32, 0x00000206#32) := by decide
/-- 2.8: UNIMPLEMENTED ahead of BAD_MODE. -/
theorem test_add_range_restoring :
    view (exec .addRange (eng [0xFF#8] 8 0 .restoring 0 0 512)) =
      some ([0xFF#8], 8, .restoring, 0#32, 0x00000216#32) := by decide
/-- 2.7 B4. -/
theorem test_read_byte_restoring :
    view (exec .readByte (eng [0xF0#8] 4 0 .restoring 0 0 512)) =
      some ([0xF0#8], 4, .restoring, 0xF0#32, 0x00000012#32) := by decide
/-- 2.7 B2: the index equal to the length. -/
theorem test_read_byte_range :
    view (exec .readByte (eng [0xFF#8, 0x01#8] 9 9 .normal 2 0 512)) =
      some ([0xFF#8, 0x01#8], 9, .normal, 0#32, 0x00000406#32) := by decide
/-- 2.7 S1. -/
theorem test_restore_begin :
    view (exec .restoreBegin (eng [0xFF#8, 0x01#8] 9 9 .normal 0 0 512)) =
      some ([], 0, .restoring, 0#32, 0x00000012#32) := by decide
/-- 2.7 S4: bits 31:8 ignored. -/
theorem test_restore_byte :
    view (exec .restoreByte (eng [0xF0#8] 4 0 .restoring 0x103 0 512)) =
      some ([0xF0#8, 0x03#8], 6, .restoring, 0#32, 0x00000012#32) := by decide
/-- 2.7 S6. -/
theorem test_restore_byte_full :
    view (exec .restoreByte (eng [0xF0#8] 4 0 .restoring 1 0 1)) =
      some ([0xF0#8], 4, .restoring, 0#32, 0x00000616#32) := by decide
/-- 2.7 S7. -/
theorem test_restore_commit :
    view (exec .restoreCommit (six .restoring 5 6)) = some ([0xF0#8, 0x03#8], 6, .normal, 0#32, 0x00000002#32) ∧
      cursorOf (exec .restoreCommit (six .restoring 5 6)) = some 5 := by decide
/-- 2.7 S8: the cursor equal to the capacity. -/
theorem test_restore_commit_rejects :
    view (exec .restoreCommit (six .restoring 16 6)) = some ([], 0, .normal, 0#32, 0x00000706#32) := by decide
/-- 2.8: ILLEGAL_CMD ahead of BAD_MODE. -/
theorem test_illegal_restoring :
    view (step (pend (eng [0xFF#8] 8 0 .restoring 0 0 512) 0x00000012)) =
      some ([0xFF#8], 8, .restoring, 0#32, 0x00000116#32) := by decide

/-! ## The handshake (95_test_vectors.md 2.9) -/

/-- H3, second run: the third write is dropped and OVR is set; ARG0 keeps 3. -/
theorem test_dropped_write :
    step ((pend (eng [0xFF#8] 8 0 .normal 3 0 512) 2).hostNext (.write .w32 0x4004 7)) =
      .next { pend (eng [0xFF#8] 8 0 .normal 3 0 512) 2 with
        status := { (pend (eng [0xFF#8] 8 0 .normal 3 0 512) 2).status with ovr := true } } := by rfl
/-- H6: reset while a RESERVE is pending. -/
theorem test_reset_pending :
    view (step (pend (eng [0xFF#8] 8 0 .normal 0 0 512) 1).resetNext) = some ([], 0, .normal, 0#32, 0x00000000#32) := by
  decide
theorem test_narrow_read_refused :
    refusedBy .accessShape (step ((six .normal 0 0).hostNext (.read .w8 0x4010))) = true := by decide
theorem test_foreign_read_refused :
    refusedBy .outsideWindow (step ((six .normal 0 0).hostNext (.read .w32 0x4100))) = true := by decide
theorem test_fetch_word :
    view (step (State.reset.withFetchWord 32 1)) = some ([0x01#8], 1, .normal, 0#32, 0x00000002#32) := by decide

/-! ## States that meet the hypotheses of the statements -/

/-- Full, below MAX_BYTES. -/
def full : State := eng [0xFF#8] 8 3 .normal 0 0 512

/-- Full, at MAX_BYTES = 1. -/
def fullTop : State := eng [0xFF#8] 8 3 .normal 0 0 1

theorem inv_six : Inv (six .normal 5 6) :=
  ⟨by decide, by decide, by decide, by decide, by decide, by decide, by decide⟩
theorem inv_six_restoring : Inv (six .restoring 15 6) :=
  ⟨by decide, by decide, by decide, by decide, by decide, by decide, by decide⟩
theorem inv_full : Inv full := ⟨by decide, by decide, by decide, by decide, by decide, by decide, by decide⟩
theorem inv_pending (w : Word) : Inv (pend (six .normal 5 6) w) :=
  ⟨inv_six.config, inv_six.canonical, inv_six.inside, inv_six.bound, inv_six.countTotal, inv_six.cursorBelow,
    inv_six.restoringBit⟩

theorem witness_DecodeEncodeAgree : Instr.wf .restoreCommit = true := by decide

theorem witness_IllegalWordsOnlyReport :
    (six .normal 5 6).status.busy = false ∧
    ∃ (s : State) (w : Word), s.status.busy = true ∧ s.cmdw = w ∧ ∃ why, decode w = .illegal why :=
  ⟨by decide, pend full 0x10, 0x10, by decide, by decide, .reservedBits, by decide⟩

theorem witness_StepRunsDecodedCommand :
    ∃ (s : State) (i : Instr), s.status.busy = true ∧ decode s.cmdw = .command i ∧ s.turns = [] :=
  ⟨pend full 1, .reserve, by decide, by decide, by decide⟩

theorem witness_PlacedWordRunsNext : ∃ (w : Word) (i : Instr), decode w = .command i := ⟨0xD, .restoreCommit, by decide⟩

/-- R76's three shapes: two operand lines, one, none. -/
theorem witness_IssuedCommandRunsWithItsOperand :
    (∃ t : State, exec .restoreCommit ({ [AsmOp.wr .arg0 5, .wr .arg1 6].foldl State.storeOperand (six .restoring 0 0) with
        host := .poll :: (six .restoring 0 0).host }.accept (encode .restoreCommit)) = .next t) ∧
    (∃ t : State, exec .remove ({ [AsmOp.wr .arg0 7].foldl State.storeOperand full with
        host := .poll :: full.host }.accept (encode .remove)) = .next t) ∧
    (∃ t : State, exec .reserve ({ [].foldl State.storeOperand full with
        host := .poll :: full.host }.accept (encode .reserve)) = .next t) ∧
    setsOperand (.wr .arg0 5) = true ∧ setsOperand (.wr .arg1 6) = true ∧
    full.status.busy = false ∧ full.turns = [] ∧
    (six .restoring 0 0).status.busy = false ∧ (six .restoring 0 0).turns = [] :=
  ⟨⟨_, rfl⟩, ⟨_, rfl⟩, ⟨_, rfl⟩, by decide⟩

theorem witness_CommandAcceptance : full.status.busy = false ∧ (pend full 1).status.busy = true := by decide

theorem witness_BusyWritesAreDropped : (pend full 1).status.busy = true := by decide

theorem witness_OperandRegistersHoldTheirWord : full.status.busy = false := by decide

theorem witness_IdleReadsShowTheState : ∃ s : State, Inv s ∧ s.status.busy = false := ⟨full, inv_full, by decide⟩

/-- The four cases of CURSOR: shown, no capacity, RESTORING, pending. -/
theorem witness_CursorRegister :
    (∃ s : State, Inv s ∧ s.mode = .normal ∧ 0 < s.cap ∧ s.status.busy = false) ∧ (∃ s : State, Inv s ∧ s.cap = 0) ∧
    (∃ s : State, Inv s ∧ s.mode = .restoring) ∧ ∃ s : State, Inv s ∧ s.status.busy = true :=
  ⟨⟨full, inv_full, by decide⟩,
    ⟨State.reset, ⟨by decide, by decide, by decide, by decide, by decide, by decide, by decide⟩, by decide⟩,
    ⟨_, inv_six_restoring, by decide⟩, ⟨_, inv_pending 1, by decide⟩⟩

theorem witness_BusyReadsAreDraws :
    (pend full 5).status.busy = true ∧ 0x24 ≤ 0xFC ∧ 0xFC % 4 = 0 ∧ 0x24 % 4 = 0 := by decide

theorem witness_ReservedOffsetsAndReadOnlyRegisters : 0x24 ≤ 0xFC ∧ 0xFC % 4 = 0 ∧ 0x24 % 4 = 0 := by decide

/-- The last byte of the window for each cause of refusal, and the last word of it. -/
theorem witness_AccessShapeIsChecked :
    (252 < 256 ∧ Width.w64 ≠ .w32) ∧ (255 < 256 ∧ 255 % 4 ≠ 0) ∧ 252 < 256 ∧ 252 % 4 = 0 := by decide

theorem witness_ReadsHaveNoSideEffect :
    (∃ t : State, step (full.hostNext .poll) = .next t) ∧ ∃ t : State, step ((pend full 1).hostNext (.read .w32 0x4010)) = .next t :=
  ⟨⟨_, rfl⟩, _, rfl⟩

theorem witness_HostCannotCancel :
    (∃ t : State, step ((pend full 1).hostNext (.write .w32 0x4000 0)) = .next t) ∧ (pend full 1).status.busy = true ∧
    ∃ t : State, step (pend full 1) = .next t ∧ t.status.busy = false :=
  ⟨⟨_, rfl⟩, by decide, _, rfl, by decide⟩

/-- A step that sets OVR, and one that clears it. -/
theorem witness_OvrEvents :
    (∃ s t : State, s.status.busy = true ∧ s.status.ovr = false ∧ step (s.hostNext (writeOf s .arg1 9)) = .next t ∧
      t.status.ovr = true) ∧
    (0x20#32).getLsbD 5 = true ∧
    ∃ s t : State, s.status.ovr = true ∧ step (s.hostNext (writeOf s .status 0x20)) = .next t ∧ t.status.ovr = false :=
  ⟨⟨pend full 1, _, by decide, by decide, rfl, by decide⟩, by decide,
    (pend full 1).overrun, _, by decide, rfl, by decide⟩

theorem witness_IdleHoldsAllState : full.status.busy = false ∧ full.turns = [] ∧ full.host = [] := by decide

/-- Both ends of MAX_BYTES's range. -/
theorem witness_ResetState :
    Config.wf { maxBytes := 1, base := 0 } = true ∧ Config.wf { maxBytes := 2 ^ 28, base := 256 } = true := by decide

theorem witness_EveryCompletionWritesStatus : ∃ t : State, exec .findNext (six .normal 10 0) = .next t ∧ t.status.notFound = true :=
  ⟨_, rfl, by decide⟩

/-- An error that keeps the structure, and the one that discards it. -/
theorem witness_ErrorsLeaveTheStructure :
    (∃ t : State, exec .reserve fullTop = .next t ∧ t.status.err = true ∧ t.status.errCode ≠ .restoreReject) ∧
    ∃ t : State, exec .restoreCommit (six .restoring 16 6) = .next t ∧ t.status.err = true ∧
      t.status.errCode = .restoreReject :=
  ⟨⟨_, rfl, by decide, by decide⟩, _, rfl, by decide, by decide⟩

/-- A pending command that must report `code`. -/
def Reports (code : ErrCode) : Prop :=
  ∃ s : State, Inv s ∧ s.status.busy = true ∧
    (match decode s.cmdw with
      | .illegal _ => .illegalCmd
      | .command i => expectedCode i s) = code

/-- Every cause: success, an illegal word, SET, REMOVE in RESTORING, REMOVE at the capacity, FIND_ORD at the count,
RESERVE full at MAX_BYTES, RESTORE_COMMIT with the count off by one. -/
theorem witness_ErrorCodeByCauseAndPriority :
    Reports .none ∧ Reports .illegalCmd ∧ Reports .unimplemented ∧ Reports .badMode ∧ Reports .indexRange ∧
      Reports .ordinalRange ∧ Reports .full ∧ Reports .restoreReject := by
  refine ⟨⟨pend (six .normal 15 0) 2, ?_, by decide, by decide⟩, ⟨pend (six .normal 0 0) 0x12, ?_, by decide, by decide⟩,
    ⟨pend (six .restoring 0 0) 8, ?_, by decide, by decide⟩, ⟨pend (six .restoring 16 0) 2, ?_, by decide, by decide⟩,
    ⟨pend (six .normal 16 0) 2, ?_, by decide, by decide⟩, ⟨pend (six .normal 6 0) 3, ?_, by decide, by decide⟩,
    ⟨pend fullTop 1, ?_, by decide, by decide⟩, ⟨pend (six .restoring 5 7) 0xD, ?_, by decide, by decide⟩⟩ <;>
  exact ⟨by decide, by decide, by decide, by decide, by decide, by decide, by decide⟩

theorem witness_ResultWrittenOnlyByValues : ∃ t : State, exec .remove full = .next t := ⟨_, rfl⟩

theorem witness_CommandFrames :
    (∃ t : State, exec .findOrd (six .normal 5 0) = .next t) ∧ ∃ t : State, exec .remove full = .next t := ⟨⟨_, rfl⟩, _, rfl⟩

theorem witness_OperandBitsRead :
    Instr.reserve ≠ .restoreCommit ∧ (0xFFFFFF00#32).extractLsb' 0 8 = full.arg0.extractLsb' 0 8 := by decide

/-- Each outcome: the length kept; grown by RESERVE and by RESTORE_BYTE; 0 by RESTORE_BEGIN, by a rejected
RESTORE_COMMIT and by reset. -/
theorem witness_BufferGrowsByOneOrIsDiscarded :
    (∃ s t : State, Inv s ∧ step s = .next t ∧ t.len = s.len) ∧
    (∃ s t : State, Inv s ∧ step s = .next t ∧ decode s.cmdw = .command .reserve ∧ t.len = s.len + 1) ∧
    (∃ s t : State, Inv s ∧ step s = .next t ∧ decode s.cmdw = .command .restoreByte ∧ t.len = s.len + 1) ∧
    (∃ s t : State, Inv s ∧ step s = .next t ∧ decode s.cmdw = .command .restoreBegin ∧ 0 < s.len ∧ t.len = 0) ∧
    (∃ s t : State, Inv s ∧ step s = .next t ∧ t.status.errCode = .restoreReject ∧ 0 < s.len ∧ t.len = 0) ∧
    ∃ s t : State, Inv s ∧ step s = .next t ∧ s.takeTurn.1 = .reset ∧ 0 < s.len ∧ t.len = 0 := by
  refine ⟨⟨full, _, ?_, rfl, by decide⟩, ⟨pend full 1, _, ?_, rfl, by decide, by decide⟩,
    ⟨pend (six .restoring 0 0) 0xC, _, ?_, rfl, by decide, by decide⟩,
    ⟨pend full 0xB, _, ?_, rfl, by decide, by decide, by decide⟩,
    ⟨pend (six .restoring 16 6) 0xD, _, ?_, rfl, by decide, by decide, by decide⟩,
    ⟨(pend full 1).resetNext, _, ?_, rfl, by decide, by decide, by decide⟩⟩ <;>
  exact ⟨by decide, by decide, by decide, by decide, by decide, by decide, by decide⟩

theorem witness_ModeChangesOnlyByRestore :
    (∃ t : State, step (pend full 0xB) = .next t ∧ full.mode = .normal ∧ t.mode = .restoring) ∧
    ∃ t : State, step (pend (six .restoring 15 6) 0xD) = .next t ∧ t.mode = .normal :=
  ⟨⟨_, rfl, by decide, by decide⟩, _, rfl, by decide⟩

theorem witness_ParametersAreConstant : ∃ t : State, step (pend full 1) = .next t := ⟨_, rfl⟩

theorem witness_CountGivesOccupied : Inv full := inv_full

theorem witness_CapacityGivesEightL : Inv full := inv_full

/-- Full below MAX_BYTES; a free slot; RESTORING; full at MAX_BYTES. -/
theorem witness_ReserveAllocatesOrGrows :
    (∃ s : State, Inv s ∧ s.mode = .normal ∧ s.count = s.cap ∧ s.len ≠ s.config.maxBytes) ∧
    (∃ s : State, Inv s ∧ s.mode = .normal ∧ s.count ≠ s.cap) ∧ (six .restoring 0 0).mode = .restoring ∧
    fullTop.mode = .normal ∧ fullTop.count = fullTop.cap ∧ fullTop.len = fullTop.config.maxBytes :=
  ⟨⟨full, inv_full, by decide⟩, ⟨_, inv_six, by decide⟩, by decide⟩

/-- RESTORING; the first index out of range; the last index, free; the last index, occupied. -/
theorem witness_RemoveFreesOneSlot :
    (six .restoring 0 0).mode = .restoring ∧
    (∃ s : State, s.mode = .normal ∧ s.cap = s.arg0.toNat) ∧
    (∃ s : State, s.mode = .normal ∧ s.arg0.toNat + 1 = s.cap ∧ s.slotbit s.arg0.toNat = false) ∧
    ∃ s : State, Memory.wf s.buf = true ∧ s.mode = .normal ∧ s.arg0.toNat + 1 = s.cap ∧ s.slotbit s.arg0.toNat = true :=
  ⟨by decide, ⟨six .normal 16 0, by decide⟩, ⟨six .normal 15 0, by decide⟩,
    eng [0xFF#8, 0x81#8] 10 9 .normal 15 0 512, by decide⟩

/-- RESERVE, COUNT, RESERVE, then a RESERVE that is FULL: the free slots 3 and 0 of 0xF6, the cursor at 3. -/
theorem witness_ReservesReturnDistinctSlots :
    ∃ (cs : List Issued) (s t : State), Inv s ∧ s.mode = .normal ∧
      (∀ c ∈ cs, c.cmd ≠ .remove ∧ c.cmd ≠ .restoreBegin) ∧ performRun cs s = some ([3, 0], t) :=
  ⟨[⟨.reserve, 0, 0⟩, ⟨.count, 0, 0⟩, ⟨.reserve, 0, 0⟩, ⟨.reserve, 0, 0⟩], eng [0xF6#8] 6 3 .normal 0 0 1, _,
    ⟨by decide, by decide, by decide, by decide, by decide, by decide, by decide⟩, by decide, by decide, rfl⟩

theorem witness_ReserveThenRemoveRoundTrip :
    ∃ s t u : State, Inv s ∧ s.mode = .normal ∧ succeedsWith .reserve s.arg0 s.arg1 s = some t ∧
      succeedsWith .remove t.result t.arg1 t = some u :=
  ⟨_, _, _, inv_six, by decide, rfl, rfl⟩

/-- The last ordinal; RESTORING; the first ordinal out of range. -/
theorem witness_FindOrdSelectsByRank :
    (∃ s : State, Inv s ∧ s.mode = .normal ∧ s.arg0.toNat + 1 = s.count) ∧ (six .restoring 0 0).mode = .restoring ∧
    (six .normal 6 0).mode = .normal ∧ (six .normal 6 0).count = (six .normal 6 0).arg0.toNat :=
  ⟨⟨_, inv_six, by decide⟩, by decide⟩

/-- A hit at the last occupied slot, a miss just past it, and RESTORING. -/
theorem witness_FindNextFindsFirst :
    (∃ s : State, Inv s ∧ s.mode = .normal ∧ ∃ i, s.arg0.toNat ≤ i ∧ i < s.cap ∧ s.slotbit i = true) ∧
    (∃ s : State, Inv s ∧ s.mode = .normal ∧ ∀ i, s.arg0.toNat ≤ i → i < s.cap → s.slotbit i = false) ∧
    (six .restoring 0 0).mode = .restoring := by
  refine ⟨⟨six .normal 9 0, ?_, by decide, 9, by decide⟩, ⟨six .normal 10 0, ?_, by decide, ?_⟩, by decide⟩
  · exact ⟨by decide, by decide, by decide, by decide, by decide, by decide, by decide⟩
  · exact ⟨by decide, by decide, by decide, by decide, by decide, by decide, by decide⟩
  · intro i h1 h2
    have h : ∀ k : Fin 16, 10 ≤ k.val → (six .normal 10 0).slotbit k.val = false := by decide
    exact h ⟨i, h2⟩ h1

theorem witness_OrdinalsEnumerateOccupied :
    ∃ s t t' : State, Inv s ∧ s.mode = .normal ∧ 0 < s.count ∧ succeedsWith .findOrd 0 s.arg1 s = some t ∧
      succeedsWith .findOrd 5 s.arg1 s = some t' :=
  ⟨_, _, _, inv_six, by decide, by decide, rfl, rfl⟩

/-- The last byte, and the first index past it. -/
theorem witness_ReadByteGivesTheByte :
    (six .normal 1 0).arg0.toNat + 1 = (six .normal 1 0).len ∧ (six .normal 2 0).arg0.toNat = (six .normal 2 0).len := by
  decide

/-- NORMAL; RESTORING with no room; RESTORING with room for one byte. -/
theorem witness_RestoreByteAppends :
    (six .normal 0 0).mode = .normal ∧
    (∃ s : State, s.mode = .restoring ∧ s.len = s.config.maxBytes) ∧
    ∃ s : State, Memory.wf s.buf = true ∧ s.mode = .restoring ∧ s.len + 1 = s.config.maxBytes ∧ s.count = s.total :=
  ⟨by decide, ⟨eng [0xF0#8] 4 0 .restoring 1 0 1, by decide⟩, eng [0xF0#8] 4 0 .restoring 1 0 2, by decide⟩

/-- NORMAL; the count off by one; the cursor equal to the capacity; the cursor just below it. -/
theorem witness_RestoreCommitChecksPayload :
    (six .normal 0 0).mode = .normal ∧
    (∃ s : State, s.mode = .restoring ∧ s.arg1.toNat = s.count + 1) ∧
    (∃ s : State, s.mode = .restoring ∧ s.arg1.toNat = s.count ∧ 0 < s.cap ∧ s.cap = s.arg0.toNat) ∧
    ∃ s : State, s.mode = .restoring ∧ s.arg1.toNat = s.count ∧ 0 < s.cap ∧ s.arg0.toNat + 1 = s.cap :=
  ⟨by decide, ⟨six .restoring 5 7, by decide⟩, ⟨six .restoring 16 6, by decide⟩, six .restoring 15 6, by decide⟩

theorem witness_RestoreGivesBackSavedStructure :
    ∃ s r : State, Inv s ∧ s.mode = .normal ∧ r.config = s.config ∧ r.mode = .restoring :=
  ⟨_, six .restoring 15 6, inv_six, by decide⟩

theorem witness_StepKeepsInvariants : ∃ s t : State, Inv s ∧ step s = .next t := ⟨_, _, inv_pending 1, rfl⟩

theorem witness_StepKeepsStatusConsistent : ∃ s t : State, StatusInv s.status ∧ step s = .next t :=
  ⟨pend full 1, _, ⟨by decide, by decide, by decide, by decide⟩, rfl⟩

theorem witness_ResetMeetsInvariants : Config.wf { maxBytes := 2 ^ 28, base := 0xFF00 } = true := by decide

theorem witness_EveryCommandCompletes : ∃ s : State, Inv s ∧ s.status.busy = true := ⟨_, inv_pending 0xD, by decide⟩

theorem witness_OnlyForeignAccessesStop :
    ∃ s : State, Inv s ∧ ∀ op, s.host.head? = some op → op.wf s.config = true :=
  ⟨full, inv_full, by intro op h; cases h⟩

theorem witness_CanonicalStorageIsDeterminedByItsBytes :
    Memory.wf [(0, 0xF0#8), (2, 0x03#8)] = true ∧ Memory.wf [(0, 0xF0#8), (1, 0x00#8)] = false := by decide

end Sys2Proof.Tests
end

