-- ==== Sys2Proof/Proofs/Completion.lean ====
section
/-! SUPPORT. Every command ends in one of the two completions (60_exceptions.md R182 to R184), and one step of the machine
leaves the parameters alone (00_scope.md R8, R10). -/

namespace Sys2Proof.Machine

variable {s t : State}

/-! ## The engine's step ends in a completion -/

/-- `t` is `s` after a completion: a success (R183) or an error (R184), written over a state `u` that the command's other
writes have left, with the operands, the surroundings of the engine and STATUS as in `s`. -/
inductive Completes (s : State) : State → Prop
  | success {u : State} (notFound : Bool) (keeps : KeepsInputs s u) (status : u.status = s.status) :
      Completes s (u.complete notFound)
  | error {u : State} {code : ErrCode} (isError : code ≠ .none) (keeps : KeepsInputs s u) (status : u.status = s.status) :
      Completes s (u.raise code)

theorem KeepsInputs.refl (s : State) : KeepsInputs s s := ⟨rfl, rfl, rfl, rfl, rfl, rfl, rfl⟩

theorem Completes.raise (s : State) {code : ErrCode} (h : code ≠ .none) : Completes s (s.raise code) :=
  .error h (.refl s) rfl

theorem Completes.answer (s : State) (v : Nat) : Completes s (s.answer v) :=
  .success (u := s.setResult v) false (.refl s) rfl

theorem Completes.busy_done (h : Completes s t) : t.status.busy = false ∧ t.status.done = true := by
  cases h <;> exact ⟨rfl, rfl⟩

theorem Completes.config (h : Completes s t) : t.config = s.config := by
  cases h with
  | success _ keeps _ | error _ keeps _ =>
    obtain ⟨_, _, _, hconfig, _⟩ := keeps
    exact hconfig

/-- R154's acceptance writes the mode, the cursor and the draw counter only. -/
theorem State.adopt_completes (s : State) : Completes s (s.adopt.complete false) := by
  rcases Nat.eq_zero_or_pos s.cap with h | h
  · rw [State.adopt_zero h]
    exact .success false (.refl s) rfl
  · rw [State.adopt_pos h]
    exact .success false (.refl s) rfl

/-- What R182 says of every command: if it answers a next state, that state is a completion of the state before. -/
theorem exec_completes {i : Instr} (h : exec i s = .next t) : Completes s t := by
  cases i with
  | reserve =>
    rcases execReserve_next h with ⟨_, rfl⟩ | ⟨_, _, _, rfl⟩ | ⟨_, _, _, rfl⟩ | ⟨_, _, i, _, rfl⟩
    · exact .raise s nofun
    · exact .raise s nofun
    · exact .success false (.refl s) rfl
    · exact .success false (.refl s) rfl
  | remove =>
    rcases execRemove_next h with ⟨_, rfl⟩ | ⟨_, _, rfl⟩ | ⟨_, _, _, rfl⟩ | ⟨_, _, _, rfl⟩
    · exact .raise s nofun
    · exact .raise s nofun
    · exact .success false (.refl s) rfl
    · exact .success false (.refl s) rfl
  | findOrd =>
    rcases execFindOrd_next h with ⟨_, rfl⟩ | ⟨_, _, rfl⟩ | ⟨_, _, i, _, rfl⟩
    · exact .raise s nofun
    · exact .raise s nofun
    · exact .answer s i
  | findNext =>
    rcases execFindNext_next h with ⟨_, rfl⟩ | ⟨_, i, _, rfl⟩ | ⟨_, _, rfl⟩
    · exact .raise s nofun
    · exact .answer s i
    · exact .success true (.refl s) rfl
  | count | capacity | popcnt8 => cases h; exact .answer s _
  | set | addRange => cases h; exact .raise s nofun
  | readByte =>
    rcases execReadByte_next h with ⟨_, rfl⟩ | ⟨_, rfl⟩
    · exact .raise s nofun
    · exact .answer s _
  | restoreBegin => cases h; exact .success false (.refl s) rfl
  | restoreByte =>
    rcases execRestoreByte_next h with ⟨_, rfl⟩ | ⟨_, _, rfl⟩ | ⟨_, _, rfl⟩
    · exact .raise s nofun
    · exact .raise s nofun
    · exact .success false (.refl s) rfl
  | restoreCommit =>
    rcases execRestoreCommit_next h with ⟨_, rfl⟩ | ⟨_, _, rfl⟩ | ⟨_, _, rfl⟩
    · exact .raise s nofun
    · exact .error nofun (.refl s) rfl
    · exact s.adopt_completes

/-- So is the engine's step, an illegal word's too (30_encoding.md R73). -/
theorem engineStep_completes (h : engineStep s = .next t) : Completes s t := by
  rcases engineStep_next h with ⟨i, _, hexec⟩ | ⟨_, _, rfl⟩
  · exact exec_completes hexec
  · exact .raise s nofun

/-! ## The host's turn leaves the parameters alone -/

theorem State.writeOffset_config (s : State) (off : Nat) (v : Word) : (s.writeOffset off v).config = s.config := by
  rcases s.writeOffset_cases off v with h | ⟨_, h⟩ | ⟨_, h | h | h⟩ | h <;> rw [h] <;> rfl

theorem State.recordRead_config (s : State) (off : Nat) : (s.recordRead off).config = s.config := by
  obtain ⟨d, h⟩ := s.recordRead_eq off
  rw [h]
  rfl

theorem State.pollOnce_config (s : State) (rest : List BusOp) : (s.pollOnce rest).config = s.config := by
  unfold State.pollOnce
  split <;> exact s.recordRead_config (regOffset .status)

theorem State.hostTurn_config (h : s.hostTurn = .next t) : t.config = s.config := by
  rcases State.hostTurn_next h with ⟨_, rfl⟩ | ⟨_, _, v, _, off, _, _, rfl⟩ | ⟨_, _, _, off, _, _, rfl⟩ | ⟨rest, _, rfl⟩
  · rfl
  · exact State.writeOffset_config _ off v
  · exact State.recordRead_config _ off
  · exact s.pollOnce_config rest

/-- Settles O31, by the four things a step can do. -/
theorem parametersAreConstant : Obligations.ParametersAreConstant := by
  intro s t h
  obtain ⟨ts, hhost | ⟨_, hengine⟩ | rfl | rfl⟩ := step_next h
  · exact (State.hostTurn_config hhost :)
  · exact (engineStep_completes hengine).config
  · rfl
  · rfl

end Sys2Proof.Machine
end

