-- ==== Sys2Proof/Proofs/Progress.lean ====
section
/-! SUPPORT. Under the invariants no command stops: RESERVE's scan (42_allocate.md R110) and FIND_ORD's scan (43_search.md
R130) end, because the count is the number of occupied slots (10_state.md R45(b)). -/

namespace Sys2Proof.Machine

variable {s : State}

/-- A command behind a mode check answers a next state if its effect does in the mode it is allowed in. -/
theorem State.onlyIn_answers {m : Mode} {k : Host.Outcome State Fault Refusal} (h : s.mode = m → ∃ t, k = .next t) :
    ∃ t, s.onlyIn m k = .next t := by
  by_cases hm : s.mode = m
  · rw [State.onlyIn_pos k hm]
    exact h hm
  · exact ⟨_, State.onlyIn_neg k hm⟩

/-! ## RESERVE -/

/-- R110: where not every slot is occupied, the scan for a free slot finds one. -/
theorem State.freeSlot_isSome (h : s.total ≠ s.cap) : ∃ i, s.freeSlot = some i := by
  obtain ⟨i, hi, hfree⟩ := State.exists_free (Nat.lt_of_le_of_ne s.total_le_cap h)
  cases hscan : s.freeSlot with
  | none =>
    have hocc := State.freeSlot_none hscan hi
    rw [hfree] at hocc
    cases hocc
  | some j => exact ⟨j, rfl⟩

theorem execReserve_answers (hcount : s.count = s.total) : ∃ t, execReserve s = .next t := by
  refine State.onlyIn_answers fun _ => ?_
  split
  · split <;> exact ⟨_, rfl⟩
  · rename_i hne
    obtain ⟨i, hi⟩ := State.freeSlot_isSome (hcount ▸ hne)
    exact ⟨s.allocate i, by rw [hi]⟩

/-! ## FIND_ORD -/

/-- R130's inner loop finds its bit where the ones passed and the ones ahead reach past the ordinal. -/
theorem bitOfOrdinal_isSome {v : Byte} {ord : Nat} {bs : List Nat} :
    ∀ {acc : Nat}, acc ≤ ord → ord < acc + bs.countP (fun b => v.getLsbD b) →
      ∃ b, bitOfOrdinal v ord acc bs = some b := by
  induction bs with
  | nil => exact fun hle hlt => absurd hlt (by simpa using hle)
  | cons b bs ih =>
    intro acc hle hlt
    rw [List.countP_cons] at hlt
    cases hb : v.getLsbD b
    · simp only [bitOfOrdinal, hb]
      exact ih hle (by simpa [hb] using hlt)
    · by_cases hacc : acc = ord
      · exact ⟨b, by simp [bitOfOrdinal, hb, hacc]⟩
      · simp only [bitOfOrdinal, hb, hacc]
        rw [if_pos hb] at hlt
        exact ih (by omega) (by omega)

/-- R130's outer loop finds its slot where the ones passed and the ones of the bytes ahead reach past the ordinal. -/
theorem slotOfOrdinal_isSome {ord : Nat} {bytes : List Byte} :
    ∀ {B acc : Nat}, acc ≤ ord → ord < acc + (bytes.map popcount8).sum →
      ∃ i, slotOfOrdinal ord B acc bytes = some i := by
  induction bytes with
  | nil => exact fun hle hlt => absurd hlt (by simpa using hle)
  | cons v rest ih =>
    intro B acc hle hlt
    rw [List.map_cons, List.sum_cons] at hlt
    rw [slotOfOrdinal, popcnt_toNat]
    split
    · rename_i hin
      obtain ⟨b, hb⟩ := bitOfOrdinal_isSome hle hin
      exact ⟨8 * B + b, by rw [hb, Option.map_some]⟩
    · exact ih (by omega) (by omega)

theorem execFindOrd_answers (hcount : s.count = s.total) : ∃ t, execFindOrd s = .next t := by
  refine State.onlyIn_answers fun _ => ?_
  split
  · exact ⟨_, rfl⟩
  · rename_i hlt
    have hord : s.argIndex < 0 + (s.bytes.map popcount8).sum := by
      rw [hcount, State.total] at hlt
      omega
    obtain ⟨i, hi⟩ := slotOfOrdinal_isSome (Nat.zero_le _) hord
    exact ⟨s.answer i, by rw [hi]⟩

/-! ## Every command -/

/-- With the count R45(b) asks for, every command answers a next state. -/
theorem exec_answers (hcount : s.count = s.total) (i : Instr) : ∃ t, exec i s = .next t := by
  cases i with
  | reserve => exact execReserve_answers hcount
  | findOrd => exact execFindOrd_answers hcount
  | remove =>
    refine State.onlyIn_answers fun _ => ?_
    split
    · exact ⟨_, rfl⟩
    · split <;> exact ⟨_, rfl⟩
  | findNext => exact State.onlyIn_answers fun _ => by split <;> exact ⟨_, rfl⟩
  | restoreByte | restoreCommit => exact State.onlyIn_answers fun _ => by split <;> exact ⟨_, rfl⟩
  | readByte =>
    show ∃ t, execReadByte s = .next t
    unfold execReadByte
    split <;> exact ⟨_, rfl⟩
  | count | capacity | popcnt8 | set | addRange | restoreBegin => exact ⟨_, rfl⟩

theorem engineStep_answers (hcount : s.count = s.total) : ∃ t, engineStep s = .next t := by
  cases hd : decode s.cmdw with
  | command i =>
    rw [engineStep_command hd]
    exact exec_answers hcount i
  | illegal why => exact ⟨_, engineStep_illegal hd⟩

/-- Settles O51: the engine's step answers a next state, and what it answers is a completion. -/
theorem everyCommandCompletes : Obligations.EveryCommandCompletes := by
  intro s hinv hbusy
  obtain ⟨t, ht⟩ := engineStep_answers hinv.countTotal
  exact ⟨t, by rw [step_engineNext, engineTurn_busy hbusy, ht], (engineStep_completes ht).busy_done⟩

end Sys2Proof.Machine
end

