-- ==== Sys2Proof/Proofs/Effects.lean ====
section
/-! SUPPORT. What a command does, said once for all thirteen commands, and what follows for RESULT (10_state.md R32) and
for what each command leaves alone (R25, R30, R31). -/

namespace Sys2Proof.Machine

variable {s t : State} {i : Instr}

/-- The commands whose whole effect without error is a value in RESULT. RESERVE writes RESULT too, with the slot it
takes (42_allocate.md R110). -/
def isQuery : Instr → Bool
  | .findOrd | .findNext | .count | .capacity | .popcnt8 | .readByte => true
  | .reserve | .remove | .set | .addRange | .restoreBegin | .restoreByte | .restoreCommit => false

/-- `Effect s i t`: what a command `i` that answers the next state `t` from `s` has done, with the facts its checks have
established. Tied to `exec` by `exec_effect`. -/
inductive Effect (s : State) : Instr → State → Prop
  | fails {i : Instr} {code : ErrCode} (isError : code ≠ .none) (notReject : code ≠ .restoreReject) :
      Effect s i (s.raise code)
  | answers {i : Instr} (query : isQuery i = true) (v : Nat) (notFound : Bool) :
      Effect s i ((s.setResult v).complete notFound)
  | grows (room : s.len ≠ s.config.maxBytes) : Effect s .reserve s.grow
  | allocates {slot : Nat} (below : slot < s.cap) (free : s.slotbit slot = false) : Effect s .reserve (s.allocate slot)
  | frees (below : s.argIndex < s.cap) (occupied : s.slotbit s.argIndex = true) :
      Effect s .remove (State.complete { s.clearbit s.argIndex with count := s.count - 1 } false)
  | leavesFree : Effect s .remove (s.complete false)
  | begins : Effect s .restoreBegin ((s.discard .restoring).complete false)
  | appends (mode : s.mode = .restoring) (room : s.len ≠ s.config.maxBytes) :
      Effect s .restoreByte
        (State.complete { s.bufAppend s.argByte with count := s.count + (popcnt s.argByte).toNat } false)
  | rejects : Effect s .restoreCommit ((s.discard .normal).raise .restoreReject)
  | adopts (fits : s.rejects = false) : Effect s .restoreCommit (s.adopt.complete false)

/-- Every next state of a command is one of the effects. -/
theorem exec_effect (h : exec i s = .next t) : Effect s i t := by
  cases i with
  | reserve =>
    rcases execReserve_next h with ⟨_, rfl⟩ | ⟨_, _, _, rfl⟩ | ⟨_, _, room, rfl⟩ | ⟨_, _, slot, hslot, rfl⟩
    · exact .fails nofun nofun
    · exact .fails nofun nofun
    · exact .grows room
    · obtain ⟨below, free, _⟩ := State.freeSlot_some hslot
      exact .allocates below free
  | remove =>
    rcases execRemove_next h with ⟨_, rfl⟩ | ⟨_, _, rfl⟩ | ⟨_, below, occupied, rfl⟩ | ⟨_, _, _, rfl⟩
    · exact .fails nofun nofun
    · exact .fails nofun nofun
    · exact .frees below occupied
    · exact .leavesFree
  | findOrd =>
    rcases execFindOrd_next h with ⟨_, rfl⟩ | ⟨_, _, rfl⟩ | ⟨_, _, slot, _, rfl⟩
    · exact .fails nofun nofun
    · exact .fails nofun nofun
    · exact .answers rfl slot false
  | findNext =>
    rcases execFindNext_next h with ⟨_, rfl⟩ | ⟨_, slot, _, rfl⟩ | ⟨_, _, rfl⟩
    · exact .fails nofun nofun
    · exact .answers rfl slot false
    · exact .answers rfl s.count true
  | count | capacity | popcnt8 => cases h; exact .answers rfl _ false
  | set | addRange => cases h; exact .fails nofun nofun
  | readByte =>
    rcases execReadByte_next h with ⟨_, rfl⟩ | ⟨_, rfl⟩
    · exact .fails nofun nofun
    · exact .answers rfl _ false
  | restoreBegin => cases h; exact .begins
  | restoreByte =>
    rcases execRestoreByte_next h with ⟨_, rfl⟩ | ⟨_, _, rfl⟩ | ⟨mode, room, rfl⟩
    · exact .fails nofun nofun
    · exact .fails nofun nofun
    · exact .appends mode room
  | restoreCommit =>
    rcases execRestoreCommit_next h with ⟨_, rfl⟩ | ⟨_, _, rfl⟩ | ⟨_, fits, rfl⟩
    · exact .fails nofun nofun
    · exact .rejects
    · exact .adopts fits

/-! ## What R154's acceptance leaves alone -/

@[simp] theorem State.adopt_config (s : State) : s.adopt.config = s.config := by unfold State.adopt; split <;> rfl
@[simp] theorem State.adopt_len (s : State) : s.adopt.len = s.len := by unfold State.adopt; split <;> rfl
@[simp] theorem State.adopt_buf (s : State) : s.adopt.buf = s.buf := by unfold State.adopt; split <;> rfl
@[simp] theorem State.adopt_count (s : State) : s.adopt.count = s.count := by unfold State.adopt; split <;> rfl
@[simp] theorem State.adopt_mode (s : State) : s.adopt.mode = .normal := by unfold State.adopt; split <;> rfl
@[simp] theorem State.adopt_result (s : State) : s.adopt.result = s.result := by unfold State.adopt; split <;> rfl

/-! ## RESULT -/

/-- Settles O26, by the effects that write RESULT: they end without error, and their command is none of the six. -/
theorem resultWrittenOnlyByValues : Obligations.ResultWrittenOnlyByValues := by
  intro i s t h hcase
  cases exec_effect h with
  | answers query v notFound =>
    rcases hcase with herr | rfl | rfl | rfl | rfl | rfl | rfl
    · cases herr
    all_goals cases query
  | grows | allocates =>
    rcases hcase with herr | h | h | h | h | h | h
    · cases herr
    all_goals cases h
  | adopts => exact s.adopt_result
  | fails | frees | leavesFree | begins | appends | rejects => rfl

/-! ## Frames -/

theorem State.memByte_of_buf (h : t.buf = s.buf) (a : Nat) : t.memByte a = s.memByte a := by
  rw [State.memByte, h, State.memByte]

theorem KeepsStructure.of_eq (hlen : t.len = s.len) (hbuf : t.buf = s.buf) (hcount : t.count = s.count)
    (hcursor : t.cursor = s.cursor) (hmode : t.mode = s.mode) (hdraws : t.draws = s.draws) : KeepsStructure s t :=
  ⟨⟨hlen, State.memByte_of_buf hbuf⟩, hcount, hcursor, hmode, hdraws⟩

theorem Completes.keepsInputs (h : Completes s t) : KeepsInputs s t := by
  cases h with
  | success _ keeps _ | error _ keeps _ => exact keeps

/-- Settles O27: a completion keeps the inputs, and each effect names the command that may change the rest. -/
theorem commandFrames : Obligations.CommandFrames := by
  intro i s t h
  refine ⟨(exec_completes h).keepsInputs, ?_⟩
  cases exec_effect h with
  | fails | answers => exact ⟨fun _ _ _ _ _ => .of_eq rfl rfl rfl rfl rfl rfl, fun _ _ _ => ⟨rfl, rfl⟩, fun _ _ => rfl⟩
  | grows | allocates => exact ⟨fun hne => absurd rfl hne, fun hne => absurd rfl hne, fun _ _ => rfl⟩
  | frees | leavesFree => exact ⟨fun _ hne => absurd rfl hne, fun _ _ _ => ⟨rfl, rfl⟩, fun _ _ => rfl⟩
  | begins => exact ⟨fun _ _ hne => absurd rfl hne, fun _ hne => absurd rfl hne, fun hne => absurd rfl hne⟩
  | appends => exact ⟨fun _ _ _ hne => absurd rfl hne, fun _ _ _ => ⟨rfl, rfl⟩, fun _ _ => rfl⟩
  | rejects | adopts =>
    exact ⟨fun _ _ _ _ hne => absurd rfl hne, fun _ _ hne => absurd rfl hne, fun _ hne => absurd rfl hne⟩

end Sys2Proof.Machine
end

