-- ==== Sys2Proof/Proofs/Invariants.lean ====
section
/-! SUPPORT. Every step keeps the invariants of 10_state.md R45 and the consistency of STATUS (R34 to R37, R40), and
reset meets both (R48). -/

namespace Sys2Proof.Machine

variable {s t : State} {i : Instr}

/-! ## The structure as data -/

/-- The parameters and the whole structure are the same data: buffer, count, cursor and mode. `KeepsStructure` says less
of the buffer (its bytes, not its storage) and more of the draw counter. -/
structure SameStructure (s t : State) : Prop where
  config : t.config = s.config
  len : t.len = s.len
  buf : t.buf = s.buf
  cursor : t.cursor = s.cursor
  count : t.count = s.count
  mode : t.mode = s.mode

theorem SameStructure.refl (s : State) : SameStructure s s := ⟨rfl, rfl, rfl, rfl, rfl, rfl⟩

theorem State.cap_of_len (h : t.len = s.len) : t.cap = s.cap := by rw [State.cap, h, State.cap]

theorem State.total_of_buf (hlen : t.len = s.len) (hbuf : t.buf = s.buf) : t.total = s.total :=
  State.total_congr hlen fun a _ => State.memByte_of_buf hbuf a

/-- With the buffer and the count as they were, the invariants ask only for the cursor and the RESTORING bit. -/
theorem Inv.of_sameBuffer (hinv : Inv s) (hconfig : t.config = s.config) (hlen : t.len = s.len) (hbuf : t.buf = s.buf)
    (hcount : t.count = s.count) (hcursor : t.mode = .normal → 0 < s.len → t.cursor < s.cap)
    (hbit : t.status.restoring = true ↔ t.mode = .restoring) : Inv t where
  config := hconfig ▸ hinv.config
  canonical := hbuf ▸ hinv.canonical
  inside := by rw [hbuf, hlen]; exact hinv.inside
  bound := by rw [hlen, hconfig]; exact hinv.bound
  countTotal := by rw [hcount, State.total_of_buf hlen hbuf]; exact hinv.countTotal
  cursorBelow := by rw [hlen, State.cap_of_len hlen]; exact hcursor
  restoringBit := hbit

/-- The invariants speak of the structure, and of STATUS.RESTORING only. -/
theorem Inv.of_same (hinv : Inv s) (h : SameStructure s t) (hbit : t.status.restoring = true ↔ t.mode = .restoring) :
    Inv t :=
  hinv.of_sameBuffer h.config h.len h.buf h.count (by rw [h.mode, h.cursor]; exact hinv.cursorBelow) hbit

/-! ## Reset -/

theorem State.total_of_len_zero (h : s.len = 0) : s.total = 0 := by
  simp [State.total, State.bytes, h]

/-- The empty structure meets the invariants, whatever its cursor. -/
theorem Inv.of_empty (hwf : t.config.wf = true) (hlen : t.len = 0) (hbuf : t.buf = []) (hcount : t.count = 0)
    (hbit : t.status.restoring = true ↔ t.mode = .restoring) : Inv t where
  config := hwf
  canonical := by rw [hbuf]; rfl
  inside := by simp [hbuf]
  bound := hlen ▸ Nat.zero_le _
  countTotal := by rw [hcount, State.total_of_len_zero hlen]
  cursorBelow := fun _ hpos => absurd hlen hpos.ne'
  restoringBit := hbit

theorem Inv.resetOf {c : Config} (h : c.wf = true) : Inv (State.resetOf c) :=
  .of_empty h rfl rfl rfl ⟨nofun, nofun⟩

theorem StatusInv.reset : StatusInv Status.reset := ⟨nofun, by decide, nofun, nofun⟩

/-- Settles O50: reset leaves the empty structure in NORMAL mode and STATUS all 0. -/
theorem resetMeetsInvariants : Obligations.ResetMeetsInvariants :=
  ⟨fun _ h => ⟨.resetOf h, .reset⟩, .resetOf (by decide)⟩

/-! ## The commands -/

/-- A write below the length leaves nothing at or above it. -/
theorem Inv.inside_memWrite (hinv : Inv s) {B n : Nat} (hle : s.len ≤ n) (hB : B < n) (v : Byte) :
    ∀ c ∈ memWrite s.buf B v, c.1 < n := by
  intro c hc
  rcases mem_memWrite hc with hold | hnew
  · exact (hinv.inside c hold).trans_le hle
  · exact hnew ▸ hB

theorem Inv.room (hinv : Inv s) (h : s.len ≠ s.config.maxBytes) : s.len + 1 ≤ s.config.maxBytes :=
  Nat.lt_of_le_of_ne hinv.bound h

theorem State.byte_lt_len {slot : Nat} (h : slot < s.cap) : slot / 8 < s.len := by
  rw [State.cap] at h
  omega

/-- R154: an accepted payload's cursor lies below a non-zero capacity. -/
theorem State.rejects_eq_false (h : s.rejects = false) (hcap : 0 < s.cap) : s.argIndex < s.cap := by
  by_contra hge
  rw [State.rejects_iff.mpr (.inr ⟨hcap, Nat.le_of_not_lt hge⟩)] at h
  cases h

theorem State.adopt_cursor (h : 0 < s.cap) : s.adopt.cursor = s.argIndex := by rw [State.adopt_pos h]

/-- Either completion writes RESTORING from the mode (60_exceptions.md R183, R184). -/
theorem Completes.restoringBit (h : Completes s t) : t.status.restoring = true ↔ t.mode = .restoring := by
  cases h <;> exact decide_eq_true_iff

/-- The buffer longer by one byte, whose ones are counted. -/
theorem Inv.of_append (hinv : Inv s) {v : Byte} (room : s.len ≠ s.config.maxBytes) (hconfig : t.config = s.config)
    (hlen : t.len = s.len + 1) (hbuf : t.buf = memWrite s.buf s.len v) (hcount : t.count = s.count + popcount8 v)
    (hcursor : t.mode = .normal → t.cursor < t.cap) (hbit : t.status.restoring = true ↔ t.mode = .restoring) :
    Inv t where
  config := hconfig ▸ hinv.config
  canonical := hbuf ▸ memory_wf_memWrite hinv.canonical _ _
  inside := by rw [hbuf, hlen]; exact hinv.inside_memWrite (Nat.le_succ _) (Nat.lt_succ_self _) v
  bound := by rw [hlen, hconfig]; exact hinv.room room
  countTotal := by
    rw [hcount, hinv.countTotal, ← State.total_bufAppend hinv.canonical,
      State.total_of_buf (s := s.bufAppend v) hlen hbuf]
  cursorBelow := fun hmode _ => hcursor hmode
  restoringBit := hbit

/-- One byte below the length written, and the ones counted again. -/
theorem Inv.of_writeByte (hinv : Inv s) {B : Nat} {v : Byte} (hB : B < s.len) (hconfig : t.config = s.config)
    (hlen : t.len = s.len) (hbuf : t.buf = memWrite s.buf B v) (hcount : t.count = (s.writeByte B v).total)
    (hcursor : t.mode = .normal → t.cursor < s.cap) (hbit : t.status.restoring = true ↔ t.mode = .restoring) :
    Inv t where
  config := hconfig ▸ hinv.config
  canonical := hbuf ▸ memory_wf_memWrite hinv.canonical _ _
  inside := by rw [hbuf, hlen]; exact hinv.inside_memWrite le_rfl hB v
  bound := by rw [hlen, hconfig]; exact hinv.bound
  countTotal := hcount.trans (State.total_of_buf (s := s.writeByte B v) hlen hbuf).symm
  cursorBelow := fun hmode _ => (State.cap_of_len hlen).symm ▸ hcursor hmode
  restoringBit := hbit

/-- Every command keeps the invariants. -/
theorem exec_inv (hinv : Inv s) (h : exec i s = .next t) : Inv t := by
  have hbit := (exec_completes h).restoringBit
  cases exec_effect h with
  | fails | answers | leavesFree => exact hinv.of_same ⟨rfl, rfl, rfl, rfl, rfl, rfl⟩ hbit
  | begins | rejects => exact .of_empty hinv.config rfl rfl rfl hbit
  | grows room =>
    have hcursor : s.cap + 1 < s.grow.cap := by simp only [State.cap, State.grow_len]; omega
    exact hinv.of_append room rfl rfl rfl rfl (fun _ => hcursor) hbit
  | @allocates slot below free =>
    have hcount : s.count + 1 = (s.setbit slot).total := by
      rw [hinv.countTotal, State.total_setbit hinv.canonical below free]
    exact hinv.of_writeByte (State.byte_lt_len below) rfl rfl rfl hcount
      (fun _ => Nat.mod_lt _ (Nat.zero_lt_of_lt below)) hbit
  | frees below occupied =>
    have hcount : s.count - 1 = (s.clearbit s.argIndex).total := by
      rw [hinv.countTotal, ← State.total_clearbit hinv.canonical below occupied, Nat.add_sub_cancel]
    exact hinv.of_writeByte (State.byte_lt_len below) rfl rfl rfl hcount
      (fun hmode => hinv.cursorBelow hmode (Nat.zero_lt_of_lt (State.byte_lt_len below))) hbit
  | appends mode room =>
    exact hinv.of_append room rfl rfl rfl (by simp) (fun hmode => by simp [mode] at hmode) hbit
  | adopts fits =>
    refine hinv.of_sameBuffer s.adopt_config s.adopt_len s.adopt_buf s.adopt_count (fun _ hpos => ?_) hbit
    have hcap : 0 < s.cap := Nat.mul_pos (by decide) hpos
    exact (State.adopt_cursor hcap).trans_lt (State.rejects_eq_false fits hcap)

theorem engineStep_inv (hinv : Inv s) (h : engineStep s = .next t) : Inv t := by
  rcases engineStep_next h with ⟨i, _, hexec⟩ | ⟨_, _, rfl⟩
  · exact exec_inv hinv hexec
  · exact hinv.of_same ⟨rfl, rfl, rfl, rfl, rfl, rfl⟩ decide_eq_true_iff

/-- A completion leaves STATUS consistent, whatever it was before. -/
theorem Completes.statusInv (h : Completes s t) : StatusInv t.status := by
  cases h with
  | success notFound _ _ => exact ⟨nofun, ⟨nofun, fun hne => absurd rfl hne⟩, nofun, fun _ => ⟨rfl, rfl⟩⟩
  | error isError _ _ => exact ⟨nofun, ⟨fun _ => isError, fun _ => rfl⟩, fun _ => rfl, nofun⟩

/-! ## The host's turn -/

/-- What a host's turn leaves of the engine: the same structure, and of STATUS all but OVR, or an accepted command. -/
structure HostLeaves (s t : State) : Prop where
  same : SameStructure s t
  status : (∃ ovr, t.status = { s.status with ovr := ovr }) ∨ t.status = s.status.accepted

theorem State.writeOffset_leaves (s : State) (off : Nat) (v : Word) : HostLeaves s (s.writeOffset off v) := by
  rcases s.writeOffset_cases off v with h | ⟨_, h⟩ | ⟨_, h | h | h⟩ | h <;> rw [h]
  · exact ⟨.refl s, .inl ⟨_, rfl⟩⟩
  · exact ⟨⟨rfl, rfl, rfl, rfl, rfl, rfl⟩, .inl ⟨true, rfl⟩⟩
  · exact ⟨⟨rfl, rfl, rfl, rfl, rfl, rfl⟩, .inr rfl⟩
  · exact ⟨⟨rfl, rfl, rfl, rfl, rfl, rfl⟩, .inl ⟨_, rfl⟩⟩
  · exact ⟨⟨rfl, rfl, rfl, rfl, rfl, rfl⟩, .inl ⟨_, rfl⟩⟩
  · exact ⟨⟨rfl, rfl, rfl, rfl, rfl, rfl⟩, .inl ⟨false, rfl⟩⟩

theorem State.recordRead_leaves (s : State) (off : Nat) : HostLeaves s (s.recordRead off) := by
  obtain ⟨d, h⟩ := s.recordRead_eq off
  rw [h]
  exact ⟨⟨rfl, rfl, rfl, rfl, rfl, rfl⟩, .inl ⟨_, rfl⟩⟩

/-- The operations the host has still to issue are no part of what is left, before the turn or after it. -/
theorem HostLeaves.of_host {rest : List BusOp} (h : HostLeaves { s with host := rest } t) : HostLeaves s t :=
  ⟨⟨h.same.config, h.same.len, h.same.buf, h.same.cursor, h.same.count, h.same.mode⟩, h.status⟩

theorem HostLeaves.with_host (h : HostLeaves s t) (rest : List BusOp) : HostLeaves s { t with host := rest } :=
  ⟨⟨h.same.config, h.same.len, h.same.buf, h.same.cursor, h.same.count, h.same.mode⟩, h.status⟩

theorem State.pollOnce_leaves (s : State) (rest : List BusOp) : HostLeaves s (s.pollOnce rest) := by
  have hread := s.recordRead_leaves (regOffset .status)
  unfold State.pollOnce
  split
  · exact hread
  · exact hread.with_host rest

theorem State.hostTurn_leaves (h : s.hostTurn = .next t) : HostLeaves s t := by
  rcases State.hostTurn_next h with
    ⟨_, rfl⟩ | ⟨_, _, v, _, off, _, _, rfl⟩ | ⟨_, _, _, off, _, _, rfl⟩ | ⟨rest, _, rfl⟩
  · exact ⟨.refl _, .inl ⟨_, rfl⟩⟩
  · exact (State.writeOffset_leaves _ off v).of_host
  · exact (State.recordRead_leaves _ off).of_host
  · exact s.pollOnce_leaves rest

theorem HostLeaves.restoring (h : HostLeaves s t) : t.status.restoring = s.status.restoring := by
  rcases h.status with ⟨ovr, hst⟩ | hst
  · rw [hst]
  · rw [hst, Status.accepted_restoring]

theorem HostLeaves.inv (h : HostLeaves s t) (hinv : Inv s) : Inv t :=
  hinv.of_same h.same (by rw [h.restoring, h.same.mode]; exact hinv.restoringBit)

theorem HostLeaves.statusInv (h : HostLeaves s t) (hst : StatusInv s.status) : StatusInv t.status := by
  rcases h.status with ⟨ovr, heq⟩ | heq <;> rw [heq]
  · exact ⟨hst.pending, hst.errCode, hst.errDone, hst.notFoundDone⟩
  · exact ⟨fun _ => ⟨rfl, rfl, rfl, rfl⟩, ⟨nofun, fun hne => absurd rfl hne⟩, nofun, nofun⟩

/-! ## Every step -/

theorem Inv.withTurns (hinv : Inv s) (ts : List Turn) : Inv { s with turns := ts } :=
  hinv.of_same ⟨rfl, rfl, rfl, rfl, rfl, rfl⟩ hinv.restoringBit

/-- Settles O48, by the four things a step can do. -/
theorem stepKeepsInvariants : Obligations.StepKeepsInvariants := by
  intro s t hinv h
  obtain ⟨ts, hhost | ⟨_, hengine⟩ | rfl | rfl⟩ := step_next h
  · exact (State.hostTurn_leaves hhost).inv (hinv.withTurns ts)
  · exact engineStep_inv (hinv.withTurns ts) hengine
  · exact hinv.withTurns ts
  · exact .of_empty hinv.config rfl rfl rfl ⟨nofun, nofun⟩

/-- Settles O49, by the four things a step can do. -/
theorem stepKeepsStatusConsistent : Obligations.StepKeepsStatusConsistent := by
  intro s t hst h
  obtain ⟨ts, hhost | ⟨_, hengine⟩ | rfl | rfl⟩ := step_next h
  · exact (State.hostTurn_leaves hhost).statusInv hst
  · exact (engineStep_completes hengine).statusInv
  · exact hst
  · exact .reset

end Sys2Proof.Machine
end

