-- ==== Sys2Proof/Proofs/StepEvents.lean ====
section
/-! SUPPORT. Which step changes what: the mode (10_state.md R25), the length of the buffer (R20, R22) and OVR (R39),
each with the agent whose turn it is (00_scope.md R6). -/

namespace Sys2Proof.Machine

variable {s t : State} {i : Instr}

/-- The engine's turn is its step with a command pending, and else no change. -/
theorem engineTurn_next (h : engineTurn s = .next t) : (s.status.busy = true ∧ engineStep s = .next t) ∨ t = s := by
  unfold engineTurn at h
  split at h
  · exact .inl ⟨‹_›, h⟩
  · exact .inr (next_inj.mp h).symm

/-- `step_next` with the turn named: the host's turn, the engine's step or its stutter, or reset. -/
theorem step_turn (h : step s = .next t) :
    ∃ ts, (s.takeTurn.1 = .host ∧ ({ s with turns := ts } : State).hostTurn = .next t) ∨
      (s.takeTurn.1 = .engine ∧ s.status.busy = true ∧ engineStep ({ s with turns := ts } : State) = .next t) ∨
      (s.takeTurn.1 = .engine ∧ t = ({ s with turns := ts } : State)) ∨
      (s.takeTurn.1 = .reset ∧ t = ({ s with turns := ts } : State).assertReset) := by
  obtain ⟨ts, hts⟩ := s.takeTurn_snd
  refine ⟨ts, ?_⟩
  rw [step, ← Prod.mk.eta (p := s.takeTurn), hts] at h
  cases hturn : s.takeTurn.1 <;> rw [hturn] at h
  case host => exact .inl ⟨rfl, h⟩
  case engine =>
    rcases engineTurn_next h with ⟨hbusy, hengine⟩ | rfl
    · exact .inr (.inl ⟨rfl, hbusy, hengine⟩)
    · exact .inr (.inr (.inl ⟨rfl, rfl⟩))
  case reset => exact .inr (.inr (.inr ⟨rfl, (next_inj.mp h).symm⟩))

/-! ## The mode -/

/-- RESTORE_BEGIN enters RESTORING, RESTORE_COMMIT enters NORMAL, and no other command writes the mode. -/
theorem exec_mode (h : exec i s = .next t) :
    t.mode = s.mode ∨ (i = .restoreBegin ∧ t.mode = .restoring) ∨ (i = .restoreCommit ∧ t.mode = .normal) := by
  cases exec_effect h with
  | begins => exact .inr (.inl ⟨rfl, rfl⟩)
  | rejects => exact .inr (.inr ⟨rfl, rfl⟩)
  | adopts => exact .inr (.inr ⟨rfl, s.adopt_mode⟩)
  | fails | answers | grows | allocates | frees | leavesFree | appends => exact .inl rfl

theorem engineStep_mode (h : engineStep s = .next t) :
    t.mode = s.mode ∨ (decode s.cmdw = .command .restoreBegin ∧ t.mode = .restoring) ∨
      (decode s.cmdw = .command .restoreCommit ∧ t.mode = .normal) := by
  rcases engineStep_next h with ⟨i, hdecode, hexec⟩ | ⟨_, _, rfl⟩
  · rcases exec_mode hexec with hmode | ⟨rfl, hmode⟩ | ⟨rfl, hmode⟩
    · exact .inl hmode
    · exact .inr (.inl ⟨hdecode, hmode⟩)
    · exact .inr (.inr ⟨hdecode, hmode⟩)
  · exact .inl rfl

/-- A step keeps the mode, or is the engine's step of a RESTORE command, or reset. -/
theorem step_mode (h : step s = .next t) :
    t.mode = s.mode ∨
    (s.takeTurn.1 = .engine ∧ decode s.cmdw = .command .restoreBegin ∧ t.mode = .restoring) ∨
    (s.takeTurn.1 = .engine ∧ decode s.cmdw = .command .restoreCommit ∧ t.mode = .normal) ∨
    (s.takeTurn.1 = .reset ∧ t.mode = .normal) := by
  obtain ⟨ts, ⟨_, hhost⟩ | ⟨hturn, _, hengine⟩ | ⟨_, rfl⟩ | ⟨hturn, rfl⟩⟩ := step_turn h
  · exact .inl (State.hostTurn_leaves hhost).same.mode
  · rcases engineStep_mode hengine with hmode | hbegin | hcommit
    · exact .inl hmode
    · exact .inr (.inl ⟨hturn, hbegin⟩)
    · exact .inr (.inr (.inl ⟨hturn, hcommit⟩))
  · exact .inl rfl
  · exact .inr (.inr (.inr ⟨hturn, rfl⟩))

/-- Settles O30, by the mode each of the four kinds of step leaves. -/
theorem modeChangesOnlyByRestore : Obligations.ModeChangesOnlyByRestore := by
  intro s t h
  rcases step_mode h with hsame | ⟨hturn, hdecode, hmode⟩ | ⟨hturn, hdecode, hmode⟩ | ⟨hturn, hmode⟩
  · exact ⟨fun hn hr => (nomatch hn.symm.trans (hsame.symm.trans hr)),
      fun hr hn => (nomatch hr.symm.trans (hsame.symm.trans hn))⟩
  · exact ⟨fun _ _ => ⟨hturn, hdecode⟩, fun _ hn => (nomatch hmode.symm.trans hn)⟩
  · exact ⟨fun _ hr => (nomatch hmode.symm.trans hr), fun _ _ => .inr ⟨hturn, hdecode⟩⟩
  · exact ⟨fun _ hr => (nomatch hmode.symm.trans hr), fun _ _ => .inl hturn⟩

/-! ## The length of the buffer -/

/-- An append leaves every byte below the old length. -/
theorem State.memByte_append (hbuf : ∃ v, t.buf = memWrite s.buf s.len v) {B : Nat} (hB : B < s.len) :
    t.memByte B = s.memByte B := by
  obtain ⟨v, hv⟩ := hbuf
  rw [State.memByte, hv, memRead_memWrite_other _ _ hB.ne, State.memByte]

/-- What a command does to the length: nothing, one byte more, or the empty buffer. -/
theorem exec_len (h : exec i s = .next t) :
    t.len = s.len ∨
    (t.len = s.len + 1 ∧ (i = .reserve ∨ i = .restoreByte) ∧ ∀ B < s.len, t.memByte B = s.memByte B) ∨
    (t.len = 0 ∧ (i = .restoreBegin ∨ (i = .restoreCommit ∧ t.status.errCode = .restoreReject))) := by
  cases exec_effect h with
  | fails | answers | allocates | frees | leavesFree => exact .inl rfl
  | adopts => exact .inl s.adopt_len
  | grows => exact .inr (.inl ⟨rfl, .inl rfl, fun _ hB => State.memByte_append ⟨_, rfl⟩ hB⟩)
  | appends => exact .inr (.inl ⟨rfl, .inr rfl, fun _ hB => State.memByte_append ⟨_, rfl⟩ hB⟩)
  | begins => exact .inr (.inr ⟨rfl, .inl rfl⟩)
  | rejects => exact .inr (.inr ⟨rfl, .inr ⟨rfl, rfl⟩⟩)

/-- Settles O29, by what each command does to the length; the host and an illegal word leave it. -/
theorem bufferGrowsByOneOrIsDiscarded : Obligations.BufferGrowsByOneOrIsDiscarded := by
  intro s t _ h
  obtain ⟨ts, ⟨_, hhost⟩ | ⟨hturn, hbusy, hengine⟩ | ⟨_, rfl⟩ | ⟨hturn, rfl⟩⟩ := step_turn h
  · exact .inl (State.hostTurn_leaves hhost).same.len
  · rcases engineStep_next hengine with ⟨i, hdecode, hexec⟩ | ⟨_, _, rfl⟩
    · rcases exec_len hexec with hlen | ⟨hlen, rfl | rfl, hbytes⟩ | ⟨hlen, rfl | ⟨rfl, hcode⟩⟩
      · exact .inl hlen
      · exact .inr (.inl ⟨hlen, hturn, hbusy, .inl hdecode, hbytes⟩)
      · exact .inr (.inl ⟨hlen, hturn, hbusy, .inr hdecode, hbytes⟩)
      · exact .inr (.inr ⟨hlen, .inr ⟨hturn, hbusy, .inl hdecode⟩⟩)
      · exact .inr (.inr ⟨hlen, .inr ⟨hturn, hbusy, .inr ⟨hdecode, hcode⟩⟩⟩)
    · exact .inl rfl
  · exact .inl rfl
  · exact .inr (.inr ⟨rfl, .inl hturn⟩)

/-! ## OVR -/

theorem State.writeReg_dropped (hbusy : s.status.busy = true) {r : Reg} (hr : r = .cmd ∨ r = .arg0 ∨ r = .arg1)
    (v : Word) : s.writeReg v r = s.overrun := by
  rcases hr with rfl | rfl | rfl <;> exact if_pos hbusy

/-- A write of a register leaves OVR, or is dropped and sets it, or is a STATUS write that clears it. -/
theorem State.writeReg_ovr (s : State) (v : Word) (r : Reg) :
    (s.writeReg v r).status.ovr = s.status.ovr ∨
    ((s.writeReg v r).status.ovr = true ∧ s.status.busy = true ∧ (r = .cmd ∨ r = .arg0 ∨ r = .arg1)) ∨
    ((s.writeReg v r).status.ovr = false ∧ r = .status ∧ v.getLsbD 5 = true) := by
  cases r with
  | result | count | capacity | cursor | param => exact .inl rfl
  | status =>
    by_cases hbit : v.getLsbD 5 = true
    · exact .inr (.inr ⟨by rw [State.writeReg, State.writeStatus, if_pos hbit], rfl, hbit⟩)
    · exact .inl (by rw [State.writeReg, State.writeStatus, if_neg hbit])
  | cmd | arg0 | arg1 =>
    by_cases hbusy : s.status.busy = true
    · exact .inr (.inl ⟨by rw [State.writeReg_dropped hbusy (by simp), State.overrun_status], hbusy, by simp⟩)
    · exact .inl (by simp [State.writeReg, hbusy])

theorem Completes.ovr (h : Completes s t) : t.status.ovr = s.status.ovr := by
  cases h with
  | success _ _ status => rw [State.complete_status, Status.success_ovr, status]
  | error _ _ status => rw [State.raise_status, Status.failure_ovr, status]

/-- An offset with a register is that register's. -/
theorem regAt_eq_some {off : Nat} {r : Reg} (h : regAt off = some r) : off = regOffset r := by
  unfold regAt at h
  split at h <;> cases h <;> rfl

/-- An admitted write at a register's offset is the host's write of that register. -/
theorem write_eq_writeOf {w : Width} {addr off : Nat} {r : Reg} (hok : accessOffset s.config w addr = .ok off)
    (hr : regAt off = some r) (v : Word) : BusOp.write w addr v = writeOf s r v := by
  obtain ⟨hacc, hoff⟩ := accessOffset_eq_ok.mp hok
  simp only [Config.accessOk, Config.inWindow, Bool.and_eq_true, decide_eq_true_eq] at hacc
  obtain ⟨⟨⟨hbase, _⟩, rfl⟩, _⟩ := hacc
  rw [writeOf, ← regAt_eq_some hr, hoff, Nat.add_sub_cancel' hbase]

theorem State.recordRead_status (s : State) (off : Nat) : (s.recordRead off).status = s.status := by
  obtain ⟨d, h⟩ := s.recordRead_eq off
  rw [h]
  rfl

theorem State.pollOnce_status (s : State) (rest : List BusOp) : (s.pollOnce rest).status = s.status := by
  unfold State.pollOnce
  split <;> exact s.recordRead_status (regOffset .status)

/-- The host's turn leaves OVR, or is a dropped write and sets it, or is a STATUS write that clears it. -/
theorem State.hostTurn_ovr (h : s.hostTurn = .next t) :
    t.status.ovr = s.status.ovr ∨
    (t.status.ovr = true ∧ s.status.busy = true ∧
      ∃ r v, (r = .cmd ∨ r = .arg0 ∨ r = .arg1) ∧ s.host.head? = some (writeOf s r v)) ∨
    (t.status.ovr = false ∧ ∃ v : Word, v.getLsbD 5 = true ∧ s.host.head? = some (writeOf s .status v)) := by
  rcases State.hostTurn_next h with
    ⟨_, rfl⟩ | ⟨_, _, v, rest, off, hhost, hok, rfl⟩ | ⟨_, _, rest, off, _, _, rfl⟩ | ⟨rest, _, rfl⟩
  · exact .inl rfl
  · cases hreg : regAt off with
    | none => exact .inl (by rw [State.writeOffset, hreg])
    | some r =>
      have hhead : s.host.head? = some (writeOf s r v) := by
        rw [hhost, List.head?_cons, write_eq_writeOf hok hreg]
      rw [State.writeOffset, hreg]
      rcases State.writeReg_ovr { s with host := rest } v r with hsame | ⟨hset, hbusy, hr⟩ | ⟨hclear, rfl, hbit⟩
      · exact .inl hsame
      · exact .inr (.inl ⟨hset, hbusy, r, v, hr, hhead⟩)
      · exact .inr (.inr ⟨hclear, v, hbit, hhead⟩)
  · rw [State.recordRead_status]
    exact .inl rfl
  · rw [State.pollOnce_status]
    exact .inl rfl

/-- A step leaves OVR, or is the host's dropped write, or its STATUS write that clears it, or reset. -/
theorem step_ovr (h : step s = .next t) :
    t.status.ovr = s.status.ovr ∨
    (t.status.ovr = true ∧ s.status.busy = true ∧ s.takeTurn.1 = .host ∧
      ∃ r v, (r = .cmd ∨ r = .arg0 ∨ r = .arg1) ∧ s.host.head? = some (writeOf s r v)) ∨
    (t.status.ovr = false ∧ s.takeTurn.1 = .host ∧
      ∃ v : Word, v.getLsbD 5 = true ∧ s.host.head? = some (writeOf s .status v)) ∨
    (t.status.ovr = false ∧ s.takeTurn.1 = .reset) := by
  obtain ⟨ts, ⟨hturn, hhost⟩ | ⟨_, _, hengine⟩ | ⟨_, rfl⟩ | ⟨hturn, rfl⟩⟩ := step_turn h
  · rcases State.hostTurn_ovr hhost with hsame | ⟨hset, hbusy, hwrite⟩ | ⟨hclear, hwrite⟩
    · exact .inl hsame
    · exact .inr (.inl ⟨hset, hbusy, hturn, hwrite⟩)
    · exact .inr (.inr (.inl ⟨hclear, hturn, hwrite⟩))
  · exact .inl (engineStep_completes hengine).ovr
  · exact .inl rfl
  · exact .inr (.inr (.inr ⟨rfl, hturn⟩))

/-- Settles O19: the two writes and reset by their one step, every other step by `step_ovr`. -/
theorem ovrEvents : Obligations.OvrEvents := by
  refine ⟨fun s r v hbusy hr => ?_, fun s v hbit => ?_, fun s => ⟨_, step_resetNext s, rfl⟩, fun s t h => ?_⟩
  · rw [step_writeOf, State.writeReg_dropped hbusy hr]
    rfl
  · rw [step_writeOf, State.writeReg, State.writeStatus, if_pos hbit]
  · rcases step_ovr h with hsame | ⟨hset, hbusy, hturn, hwrite⟩ | ⟨hclear, hturn, hwrite⟩ | ⟨hclear, hturn⟩
    · exact ⟨fun h0 h1 => (nomatch h0.symm.trans (hsame.symm.trans h1)),
        fun h1 h0 => (nomatch h1.symm.trans (hsame.symm.trans h0))⟩
    · exact ⟨fun _ _ => ⟨hbusy, hturn, hwrite⟩, fun _ h0 => (nomatch hset.symm.trans h0)⟩
    · exact ⟨fun _ h1 => (nomatch hclear.symm.trans h1), fun _ _ => .inr ⟨hturn, hwrite⟩⟩
    · exact ⟨fun _ h1 => (nomatch hclear.symm.trans h1), fun _ _ => .inl hturn⟩

end Sys2Proof.Machine
end

