-- ==== Sys2Proof/Proofs/Registers.lean ====
section
/-! SUPPORT. The host's registers while no command is pending (10_state.md R28 to R44), the state after reset (R48), and
canonical storage as data (R20; notes/assumptions/9.md). -/

namespace Sys2Proof.Machine

variable {s : State}

/-! ## What each register reads and takes -/

/-- Settles O9: operand reads ignore BUSY, operand writes look at it. -/
theorem operandRegistersHoldTheirWord : Obligations.OperandRegistersHoldTheirWord := by
  refine fun s v => ⟨fun hbusy => ?_, step_readOf s .arg0, step_readOf s .arg1⟩
  constructor <;> simp [step_writeOf, State.writeReg, hbusy]

/-- Settles O10, by the two values of bit 5. -/
theorem statusWriteClearsOvrOnly : Obligations.StatusWriteClearsOvrOnly := by
  intro s v
  rw [step_writeOf, State.writeReg, State.writeStatus]
  cases hbit : v.getLsbD 5
  · rw [Bool.not_false, Bool.and_true]
    rfl
  · rw [Bool.not_true, Bool.and_false]
    rfl

/-- Settles O11, field by field. -/
theorem statusWordLayout : Obligations.StatusWordLayout := by
  intro st
  obtain ⟨hlow, hhigh⟩ :=
    statusWord_reserved st.busy st.done st.err st.notFound st.restoring st.ovr (errBits st.errCode)
  exact ⟨statusWord_busy .., statusWord_done .., statusWord_err .., statusWord_notFound .., statusWord_restoring ..,
    statusWord_ovr .., hlow, statusWord_code .., hhigh⟩

/-- R12: a number below `2 ^ 32` survives the widening. -/
theorem zext32_toNat {n : Nat} (h : n < 2 ^ 32) : (zext32 n).toNat = n := by
  rw [zext32, BitVec.toNat_ofNat, Nat.mod_eq_of_lt h]

/-- R8, R10: the range of the parameters as propositions. -/
theorem Config.wf_iff {c : Config} : c.wf = true ↔ (1 ≤ c.maxBytes ∧ c.maxBytes ≤ 2 ^ 28) ∧ c.base % 256 = 0 := by
  simp only [Config.wf, Bool.and_eq_true, decide_eq_true_eq]

theorem Config.maxBytes_lt {c : Config} (h : c.wf = true) : c.maxBytes < 2 ^ 32 := by
  obtain ⟨⟨_, hmax⟩, _⟩ := Config.wf_iff.mp h
  omega

/-- R15: under the invariants every slot number fits in a word. -/
theorem Inv.cap_lt (hinv : Inv s) : s.cap < 2 ^ 32 := by
  obtain ⟨⟨_, hmax⟩, _⟩ := Config.wf_iff.mp hinv.config
  have hbound := hinv.bound
  rw [State.cap]
  omega

theorem Inv.count_lt (hinv : Inv s) : s.count < 2 ^ 32 := by
  rw [hinv.countTotal]
  exact s.total_le_cap.trans_lt hinv.cap_lt

/-- A value that is not hidden is read as it is, and nothing is used up. -/
theorem State.valueOrDraw_shown (s : State) (v : Word) : s.valueOrDraw false v = (v, s) := rfl

theorem State.valueOrDraw_hidden (s : State) (v : Word) : s.valueOrDraw true v = s.draw := rfl

/-- Settles O12: with BUSY = 0 no read is hidden, and the numbers fit in a word. -/
theorem idleReadsShowTheState : Obligations.IdleReadsShowTheState := by
  intro s hinv hbusy
  simp only [step_readOf, State.readReg, hbusy, State.valueOrDraw_shown]
  refine ⟨rfl, rfl, ⟨_, rfl, ?_⟩, ⟨_, rfl, zext32_toNat hinv.cap_lt⟩, ⟨_, rfl, ?_⟩⟩
  · rw [zext32_toNat hinv.count_lt, hinv.countTotal]
  · exact zext32_toNat (Config.maxBytes_lt hinv.config)

/-- R43's cases of a hidden cursor as propositions. -/
theorem State.cursorHidden_iff :
    s.cursorHidden = true ↔ s.cap = 0 ∨ s.mode = .restoring ∨ s.status.busy = true := by
  simp only [State.cursorHidden, Bool.or_eq_true, decide_eq_true_eq, or_assoc]

/-- Settles O13, by whether the cursor is hidden; a shown cursor lies below the capacity, so it fits in a word. -/
theorem cursorRegister : Obligations.CursorRegister := by
  refine fun s hinv => ⟨fun ⟨hmode, hcap, hbusy⟩ => ?_, fun hhidden => ?_, fun v => step_writeOf s .cursor v⟩
  · have hshown : s.cursorHidden = false := by
      simp [← Bool.not_eq_true, State.cursorHidden_iff, hmode, hcap.ne', hbusy]
    have hcursor : s.cursor < s.cap := hinv.cursorBelow hmode (Nat.pos_of_mul_pos_left hcap)
    rw [step_readOf, State.readReg, hshown, State.valueOrDraw_shown]
    exact ⟨_, rfl, zext32_toNat (hcursor.trans hinv.cap_lt)⟩
  · rw [step_readOf, State.readReg, State.cursorHidden_iff.mpr hhidden, State.valueOrDraw_hidden]
    rfl

/-! ## Reset -/

theorem Status.reset_word : Status.reset.word = 0 := by decide

/-- Settles O21: the fields by definition, PARAM by its range, the ROM by its listing. -/
theorem resetState : Obligations.ResetState := by
  intro c hwf
  exact ⟨rfl, rfl, rfl, rfl, rfl, rfl, rfl, rfl, Status.reset_word, rfl, rfl, rfl, Status.reset_word,
    zext32_toNat (Config.maxBytes_lt hwf), popcnt_toNat⟩

/-! ## Canonical storage as data -/

/-- Cells in address order. -/
def CellBefore (c d : Host.Cell) : Prop := c.1 < d.1

/-- The canonical form, as an ordered list of cells with a byte to hold. -/
theorem memory_wf_iff {m : Memory} :
    Memory.wf m = true ↔ (∀ c ∈ m, c.2 ≠ unlistedByte) ∧ m.Pairwise CellBefore := by
  induction m with
  | nil => simp
  | cons c m ih =>
    rw [memory_wf_cons, ih, List.forall_mem_cons, List.pairwise_cons]
    exact ⟨fun ⟨hc, hlt, hm, hp⟩ => ⟨⟨hc, hm⟩, hlt, hp⟩, fun ⟨⟨hc, hm⟩, hlt, hp⟩ => ⟨hc, hlt, hm, hp⟩⟩

/-- A byte other than the unlisted one is listed where it is read. -/
theorem mem_of_memRead_ne {m : Memory} {a : Nat} (h : memRead m a ≠ unlistedByte) : (a, memRead m a) ∈ m := by
  induction m with
  | nil => exact absurd rfl h
  | cons c m ih =>
    by_cases hac : a = c.1
    · simp [memRead, hac]
    · simp only [memRead, if_neg hac] at h ⊢
      exact List.mem_cons_of_mem _ (ih h)

/-- The cells of canonical storage are the bytes read from it. -/
theorem mem_iff_memRead {m : Memory} (hm : Memory.wf m = true) (c : Host.Cell) :
    c ∈ m ↔ memRead m c.1 = c.2 ∧ c.2 ≠ unlistedByte := by
  constructor
  · exact memRead_present hm
  · rintro ⟨hread, hne⟩
    have hmem := mem_of_memRead_ne (m := m) (a := c.1) (hread ▸ hne)
    rwa [hread] at hmem

/-- Settles O53: both list the same cells, and each lists its cells in address order. -/
theorem canonicalStorageIsDeterminedByItsBytes : Obligations.CanonicalStorageIsDeterminedByItsBytes := by
  intro m m' hm hm' hread
  obtain ⟨_, hsorted⟩ := memory_wf_iff.mp hm
  obtain ⟨_, hsorted'⟩ := memory_wf_iff.mp hm'
  have hmem : ∀ c, c ∈ m ↔ c ∈ m' := fun c => by rw [mem_iff_memRead hm, mem_iff_memRead hm', hread]
  have : Std.Irrefl CellBefore := ⟨fun c => Nat.lt_irrefl c.1⟩
  have : Std.Antisymm CellBefore := ⟨fun _ _ h h' => absurd h' (Nat.lt_asymm h)⟩
  exact hsorted.eq_of_mem_iff hsorted' hmem

end Sys2Proof.Machine
end

/-! SUPPORT. The register window as the host meets it: reserved offsets and read-only registers (20_memory.md R56), the
shape of an access (R54, R58), and reads that change nothing of the engine (R57). -/

namespace Sys2Proof.Machine

variable {s t : State}

/-! ## Reserved offsets and read-only registers -/

/-- R28's last register stands at 0x20, so no register stands above it. -/
theorem regAt_reserved {off : Nat} (h : 0x24 ≤ off) : regAt off = none := by
  cases hreg : regAt off with
  | none => rfl
  | some r =>
    have hlast : regOffset r ≤ 0x20 := by cases r <;> decide
    rw [regAt_eq_some hreg] at h
    omega

theorem State.recordRead_reserved (s : State) {off : Nat} (h : 0x24 ≤ off) : s.recordRead off = s.sawRead off 0 := by
  rw [State.recordRead, State.readOffset, regAt_reserved h]
  rfl

theorem State.writeOffset_reserved (s : State) {off : Nat} (h : 0x24 ≤ off) (v : Word) : s.writeOffset off v = s := by
  rw [State.writeOffset, regAt_reserved h]

/-- Settles O15: reserved offsets hold no register, and the write of a read-only register is the identity. -/
theorem reservedOffsetsAndReadOnlyRegisters : Obligations.ReservedOffsetsAndReadOnlyRegisters := by
  refine fun s v => ⟨fun off hlow hhigh halign => ?_, step_readOf s .cmd, fun r hr => ?_⟩
  · have hwindow : off < 256 := by omega
    rw [step_read s hwindow halign, step_write s v hwindow halign, s.recordRead_reserved hlow,
      s.writeOffset_reserved hlow]
    exact ⟨rfl, rfl⟩
  · rw [step_writeOf]
    rcases hr with rfl | rfl | rfl | rfl | rfl <;> rfl

/-! ## The shape of an access -/

/-- Inside the window an access of another width or alignment is refused for its shape (R54). -/
theorem accessOffset_misshapen (c : Config) {w : Width} {off : Nat} (h : off < 256) (hshape : w ≠ .w32 ∨ off % 4 ≠ 0) :
    accessOffset c w (c.base + off) = .error .accessShape := by
  have hin : c.inWindow (c.base + off) = true := by simp [Config.inWindow, h]
  have hbad : c.accessOk w (c.base + off) = false := by
    rw [Config.accessOk, Nat.add_sub_cancel_left]
    rcases hshape with hw | halign
    · simp [hw]
    · simp [halign]
  simp [accessOffset, hin, hbad]

theorem step_read_misshapen (s : State) {w : Width} {off : Nat} (h : off < 256) (hshape : w ≠ .w32 ∨ off % 4 ≠ 0) :
    step (s.hostNext (.read w (s.config.base + off))) = .refused .accessShape := by
  rw [step_hostNext, State.hostTurn]
  simp only [accessOffset_misshapen _ h hshape]

theorem step_write_misshapen (s : State) {w : Width} {off : Nat} (v : Word) (h : off < 256)
    (hshape : w ≠ .w32 ∨ off % 4 ≠ 0) :
    step (s.hostNext (.write w (s.config.base + off) v)) = .refused .accessShape := by
  rw [step_hostNext, State.hostTurn]
  simp only [accessOffset_misshapen _ h hshape]

/-- Settles O16: a misshapen access has no offset, every other access of the window has one. -/
theorem accessShapeIsChecked : Obligations.AccessShapeIsChecked := by
  refine fun s w off v h => ⟨fun hshape => ?_, fun ⟨hw, halign⟩ => ?_⟩
  · exact ⟨step_read_misshapen s h hshape, step_write_misshapen s v h hshape⟩
  · subst hw
    exact ⟨⟨_, step_read s h halign⟩, _, step_write s v h halign⟩

/-! ## Reads -/

/-- One pass of a poll changes what the host has seen and still has to do, and no more. -/
theorem State.pollOnce_eq (s : State) (rest : List BusOp) :
    ∃ d rs ops, s.pollOnce rest = { s.withObserved d rs with host := ops } := by
  obtain ⟨d, hread⟩ := s.recordRead_eq (regOffset .status)
  rw [State.pollOnce, hread]
  split
  · exact ⟨d, _, s.host, rfl⟩
  · exact ⟨d, _, rest, rfl⟩

/-- R57: a read or a poll that is a step changes the draw counter and the host's own fields, and no more. -/
theorem step_read_or_poll_eq {op : BusOp} (hop : op = .poll ∨ ∃ w addr, op = .read w addr)
    (h : step (s.hostNext op) = .next t) : ∃ d rs ops, t = { s.withObserved d rs with host := ops } := by
  rcases hop with rfl | ⟨w, addr, rfl⟩
  · rw [step_poll, next_inj] at h
    obtain ⟨d, rs, ops, hpoll⟩ := State.pollOnce_eq { s with host := .poll :: s.host } s.host
    exact ⟨d, rs, ops, h ▸ hpoll⟩
  · rw [step_hostNext, State.hostTurn] at h
    dsimp only at h
    split at h
    · obtain ⟨d, hread⟩ := State.recordRead_eq s _
      exact ⟨d, _, s.host, (next_inj.mp h) ▸ hread⟩
    · cases h

/-- Settles O17: what a read or a poll changes is no part of the engine. -/
theorem readsHaveNoSideEffect : Obligations.ReadsHaveNoSideEffect := by
  intro s t op hop h
  obtain ⟨d, rs, ops, rfl⟩ := step_read_or_poll_eq hop h
  exact ⟨⟨rfl, fun _ => rfl⟩, rfl, rfl, rfl, rfl, rfl, rfl, rfl, rfl, rfl, rfl⟩

/-! ## What can stop a step -/

/-- The host's turn answers a next state where its next operation, if it has one, is admitted (R54, R58). -/
theorem State.hostTurn_answers (h : ∀ op, s.host.head? = some op → op.wf s.config = true) :
    ∃ t, s.hostTurn = .next t := by
  unfold State.hostTurn
  split
  case h_1 => exact ⟨s, rfl⟩
  case h_2 w addr v rest hhost =>
    have hok : s.config.accessOk w addr = true := h (.write w addr v) (by rw [hhost, List.head?_cons])
    rw [accessOffset_eq_ok.mpr ⟨hok, rfl⟩]
    exact ⟨_, rfl⟩
  case h_3 w addr rest hhost =>
    have hok : s.config.accessOk w addr = true := h (.read w addr) (by rw [hhost, List.head?_cons])
    rw [accessOffset_eq_ok.mpr ⟨hok, rfl⟩]
    exact ⟨_, rfl⟩
  case h_4 rest _ => exact ⟨s.pollOnce rest, rfl⟩

/-- The engine's turn answers a next state: an idle engine's is no change, a pending command completes. -/
theorem engineTurn_answers (hcount : s.count = s.total) : ∃ t, engineTurn s = .next t := by
  unfold engineTurn
  split
  · exact engineStep_answers hcount
  · exact ⟨s, rfl⟩

/-- Settles O52, by whose turn it is; taking the turn touches neither the structure nor the host's operations. -/
theorem onlyForeignAccessesStop : Obligations.OnlyForeignAccessesStop := by
  intro s hinv hhost
  obtain ⟨ts, hts⟩ := s.takeTurn_snd
  rw [step, ← Prod.mk.eta (p := s.takeTurn), hts]
  cases s.takeTurn.1 with
  | host => exact State.hostTurn_answers hhost
  | engine => exact engineTurn_answers (hinv.withTurns ts).countTotal
  | reset => exact ⟨_, rfl⟩

end Sys2Proof.Machine

/-! SUPPORT. The command word (30_encoding.md R70 to R73): a word is its two fields, a field decodes by the opcode map, and
the four bytes of a word (20_memory.md R53) are that word. -/

namespace Sys2Proof

variable {w : Word} {i : Instr}

/-! ## The opcode map -/

/-- R72: the map takes one OPCODE value to each command. -/
theorem decodeOpcode_eq_command {op : BitVec 4} : decodeOpcode op = .command i ↔ op = opcode i := by
  cases i <;> revert op <;> decide

/-- R73, second line: the map leaves three OPCODE values without a command. -/
theorem decodeOpcode_eq_illegal {op : BitVec 4} {why : Reject} :
    decodeOpcode op = .illegal why ↔ why = .illegalOpcode ∧ (op = 0x0#4 ∨ op = 0xE#4 ∨ op = 0xF#4) := by
  cases why <;> revert op <;> decide

/-! ## Words -/

theorem decode_of_rz_zero (h : fieldRZ w = 0) : decode w = decodeOpcode (fieldOpcode w) := if_pos h

theorem decode_of_rz_ne_zero (h : fieldRZ w ≠ 0) : decode w = .illegal .reservedBits := if_neg h

/-- R72, R73: a word is a command exactly when RZ is zero and OPCODE is the command's. -/
theorem decode_eq_command : decode w = .command i ↔ fieldRZ w = 0 ∧ fieldOpcode w = opcode i := by
  by_cases h : fieldRZ w = 0
  · rw [decode_of_rz_zero h, decodeOpcode_eq_command, and_iff_right h]
  · rw [decode_of_rz_ne_zero h]
    exact ⟨nofun, fun ⟨hrz, _⟩ => absurd hrz h⟩

/-- R73: a word is ILLEGAL_CMD exactly when RZ is not zero or OPCODE is one of the three without a command. -/
theorem decode_illegal_iff :
    (∃ why, decode w = .illegal why) ↔
      fieldRZ w ≠ 0 ∨ fieldOpcode w = 0x0#4 ∨ fieldOpcode w = 0xE#4 ∨ fieldOpcode w = 0xF#4 := by
  by_cases h : fieldRZ w = 0
  · simp only [decode_of_rz_zero h, decodeOpcode_eq_illegal, exists_eq_left, h, ne_eq, not_true, false_or]
  · exact ⟨fun _ => .inl h, fun _ => ⟨_, decode_of_rz_ne_zero h⟩⟩

/-- R70: RZ and OPCODE are the whole word. -/
theorem rz_append_opcode (w : Word) : fieldRZ w ++ fieldOpcode w = w :=
  (BitVec.extractLsb'_append_extractLsb'_eq_extractLsb' rfl).trans BitVec.extractLsb'_eq_self

theorem wordRoundTrip : ∀ i : Instr, Laws.WordRoundTrip.Statement i
  | .reserve => Laws.WordRoundTrip.reserve
  | .remove => Laws.WordRoundTrip.remove
  | .findOrd => Laws.WordRoundTrip.findOrd
  | .findNext => Laws.WordRoundTrip.findNext
  | .count => Laws.WordRoundTrip.count
  | .capacity => Laws.WordRoundTrip.capacity
  | .popcnt8 => Laws.WordRoundTrip.popcnt8
  | .set => Laws.WordRoundTrip.set
  | .addRange => Laws.WordRoundTrip.addRange
  | .readByte => Laws.WordRoundTrip.readByte
  | .restoreBegin => Laws.WordRoundTrip.restoreBegin
  | .restoreByte => Laws.WordRoundTrip.restoreByte
  | .restoreCommit => Laws.WordRoundTrip.restoreCommit

theorem decode_encode (i : Instr) : decode (encode i) = .command i := by
  obtain ⟨_, _, hword, _⟩ := wordRoundTrip i
  exact hword

theorem decodeBytes_encodeBytes (i : Instr) : decodeBytes (encodeBytes i) = .command i := by
  obtain ⟨_, _, _, hbytes⟩ := wordRoundTrip i
  exact hbytes

/-- Two words that decode to one command have the same fields, so they are one word. -/
theorem decode_command_unique {w' : Word} (h : decode w = .command i) (h' : decode w' = .command i) : w = w' := by
  obtain ⟨hrz, hop⟩ := decode_eq_command.mp h
  obtain ⟨hrz', hop'⟩ := decode_eq_command.mp h'
  rw [← rz_append_opcode w, ← rz_append_opcode w', hrz, hop, hrz', hop']

/-! ## Bytes -/

/-- Above a low byte a field is the field of what stands above it. -/
theorem extract_above_byte {n : Nat} (hi : BitVec n) (lo : Byte) (k : Nat) :
    (hi ++ lo).extractLsb' (k + 8) 8 = hi.extractLsb' k 8 := by
  rw [BitVec.extractLsb'_append_eq_of_le (Nat.le_add_left 8 k), Nat.add_sub_cancel]

/-- R53: the bytes of the word that four bytes hold are those four, in their order. -/
theorem bytesOfWord_wordOfBytes (b0 b1 b2 b3 : Byte) : bytesOfWord (wordOfBytes b0 b1 b2 b3) = [b0, b1, b2, b3] := by
  have h0 : (b3 ++ b2 ++ b1 ++ b0).extractLsb' 0 8 = b0 := BitVec.extractLsb'_append_eq_right
  have h1 : (b3 ++ b2 ++ b1 ++ b0).extractLsb' 8 8 = b1 :=
    (extract_above_byte ..).trans BitVec.extractLsb'_append_eq_right
  have h2 : (b3 ++ b2 ++ b1 ++ b0).extractLsb' 16 8 = b2 :=
    (extract_above_byte ..).trans <| (extract_above_byte ..).trans BitVec.extractLsb'_append_eq_right
  have h3 : (b3 ++ b2 ++ b1 ++ b0).extractLsb' 24 8 = b3 :=
    (extract_above_byte ..).trans <| (extract_above_byte ..).trans BitVec.extractLsb'_append_eq_left
  rw [bytesOfWord, wordOfBytes, h0, h1, h2, h3]

/-- Bytes that decode to a command are the four bytes of a word that does. -/
theorem decodeBytes_eq_command {bs : List Byte} (h : decodeBytes bs = .command i) :
    ∃ w, decode w = .command i ∧ bs = bytesOfWord w := by
  unfold decodeBytes at h
  split at h
  · exact ⟨_, h, (bytesOfWord_wordOfBytes ..).symm⟩
  · cases h

/-- Settles O2: the encoding decodes to its command, and only one word does; the bytes are the word's. -/
theorem decodeEncodeAgree : Obligations.DecodeEncodeAgree := by
  refine fun i _ => ⟨fun w => ⟨fun h => decode_command_unique h (decode_encode i), ?_⟩, fun bs => ⟨fun h => ?_, ?_⟩⟩
  · rintro rfl
    exact decode_encode i
  · obtain ⟨w, hw, rfl⟩ := decodeBytes_eq_command h
    rw [encodeBytes, decode_command_unique hw (decode_encode i)]
  · rintro rfl
    exact decodeBytes_encodeBytes i

/-- Settles O1: each of the thirteen words is a command's encoding, and the other three are no command's. -/
theorem opcodeMapDecodes : Obligations.OpcodeMapDecodes :=
  ⟨decode_encode .reserve, decode_encode .remove, decode_encode .findOrd, decode_encode .findNext,
    decode_encode .count, decode_encode .capacity, decode_encode .popcnt8, decode_encode .set, decode_encode .addRange,
    decode_encode .readByte, decode_encode .restoreBegin, decode_encode .restoreByte, decode_encode .restoreCommit,
    by decide, by decide, by decide⟩

end Sys2Proof

/-! SUPPORT. The host issues a command (30_encoding.md R73, R75, R76): what each pseudo-instruction's lines are, what becomes
of a word that is no command, and what the machine does with operand writes, a CMD write and a poll in the model's default
order (notes/assumptions/1.md). -/

namespace Sys2Proof.Machine

variable {s t : State} {i : Instr}

/-! ## Pseudo-instructions -/

/-- Settles O54: each expansion is its operand lines, the command's encoding, which is the word of R72, and the poll. -/
theorem pseudoInstructionsExpand : Obligations.PseudoInstructionsExpand :=
  ⟨rfl, fun _ => rfl, fun _ => rfl, fun _ => rfl, rfl, rfl, fun _ => rfl, rfl, rfl, fun _ => rfl, rfl, fun _ => rfl,
    fun _ _ => rfl⟩

/-- R76: every pseudo-instruction is operand writes, a command and the poll. -/
theorem pseudoLines_eq_issue (p : Pseudo) :
    ∃ operands i, (∀ op ∈ operands, setsOperand op = true) ∧ pseudoLines p = issue operands i := by
  cases p with
  | reserve | count | capacity | set | addRange | restoreBegin => exact ⟨[], _, by simp, rfl⟩
  | remove v | findOrd v | findNext v | popcnt8 v | readByte v | restoreByte v =>
    exact ⟨[.wr .arg0 v], _, by simp [setsOperand], rfl⟩
  | restoreCommit c n => exact ⟨[.wr .arg0 c, .wr .arg1 n], _, by simp [setsOperand], rfl⟩

/-! ## Words that are no command -/

/-- R184: an error completion writes STATUS and nothing else. -/
theorem State.raise_onlyFails (s : State) (code : ErrCode) : OnlyFails s (s.raise code) code :=
  ⟨⟨rfl, rfl, rfl, rfl, rfl, decide_eq_true_iff, rfl⟩, .refl s, .of_eq rfl rfl rfl rfl rfl rfl, rfl⟩

/-- R181: with BUSY = 0 a CMD write is accepted, whatever its word. -/
theorem State.writeReg_cmd_idle (hidle : s.status.busy = false) (w : Word) : s.writeReg w .cmd = s.accept w := by
  rw [State.writeReg, hidle]
  rfl

/-- Settles O3: the two halves of R73 by the fields of the word, acceptance by the CMD write, and the illegal word's step
by its one completion. -/
theorem illegalWordsOnlyReport : Obligations.IllegalWordsOnlyReport := by
  refine fun s w => ⟨decode_illegal_iff, fun i => decode_eq_command, fun hidle => ?_, fun hbusy hw ⟨why, hwhy⟩ => ?_⟩
  · exact ⟨s.accept w, by rw [step_writeOf, State.writeReg_cmd_idle hidle], s.accept_cmdw w, s.status.accepted_busy⟩
  · refine ⟨s.raise .illegalCmd, ?_, s.raise_onlyFails .illegalCmd, rfl⟩
    rw [step_engineNext, engineTurn_busy hbusy, engineStep_illegal (hw ▸ hwhy)]

/-! ## The default order -/

/-- No command pending and no schedule left: by the default order the host moves. -/
structure HostMoves (s : State) : Prop where
  idle : s.status.busy = false
  unscheduled : s.turns = []

theorem HostMoves.step_eq (h : HostMoves s) : step s = s.hostTurn := by
  have hturn : s.takeTurn = (.host, s) := by simp [State.takeTurn, h.unscheduled, h.idle]
  rw [step, hturn]

/-- A command pending and no schedule left: by the default order the engine takes its step. -/
theorem step_pending (hbusy : s.status.busy = true) (hturns : s.turns = []) : step s = engineStep s := by
  have hturn : s.takeTurn = (.engine, s) := by simp [State.takeTurn, hturns, hbusy]
  rw [step, hturn]
  exact engineTurn_busy hbusy

/-- The engine performs an accepted command next. -/
theorem step_accepted (hturns : s.turns = []) (i : Instr) :
    step (s.accept (encode i)) = exec i (s.accept (encode i)) := by
  have hbusy : (s.accept (encode i)).status.busy = true := rfl
  have hdecode : decode (s.accept (encode i)).cmdw = .command i := decode_encode i
  rw [step_pending hbusy hturns, engineStep_command hdecode]

/-! ## The lines of a program -/

/-- A register write at the head of a program. -/
theorem HostMoves.step_wr (h : HostMoves s) (r : Reg) (v : Word) (p : List AsmOp) :
    step (s.withProgram (.wr r v :: p)) = .next ((s.withProgram p).writeReg v r) := by
  have hmoves : HostMoves (s.withProgram (.wr r v :: p)) := ⟨h.idle, h.unscheduled⟩
  rw [hmoves.step_eq]
  exact step_writeOf (s.withProgram p) r v

/-- An operand line at the head of a program stores its operand. -/
theorem HostMoves.step_operand (h : HostMoves s) {op : AsmOp} (hop : setsOperand op = true) (p : List AsmOp) :
    step (s.withProgram (op :: p)) = .next ((s.storeOperand op).withProgram p) := by
  have hidle : (s.withProgram p).status.busy = false := h.idle
  unfold setsOperand at hop
  split at hop
  case h_1 | h_2 =>
    rw [h.step_wr, State.writeReg, hidle]
    rfl
  all_goals cases hop

theorem HostMoves.with_operands (h : HostMoves s) (a b : Word) : HostMoves { s with arg0 := a, arg1 := b } :=
  ⟨h.idle, h.unscheduled⟩

/-- The operand lines of a program store their operands, one step each. -/
theorem HostMoves.runFor_operands {operands : List AsmOp} (hops : ∀ op ∈ operands, setsOperand op = true)
    (p : List AsmOp) (n : Nat) (h : HostMoves s) :
    runFor (operands.length + n) (s.withProgram (operands ++ p)) =
      runFor n ((operands.foldl State.storeOperand s).withProgram p) := by
  induction operands generalizing s with
  | nil => rw [List.length_nil, Nat.zero_add, List.nil_append, List.foldl_nil]
  | cons op ops ih =>
    obtain ⟨hop, hops⟩ := List.forall_mem_cons.mp hops
    obtain ⟨a, b, hstore⟩ := s.storeOperand_eq op
    rw [List.length_cons, Nat.add_right_comm, List.cons_append, runFor_succ _ (h.step_operand hop _), List.foldl_cons]
    exact ih hops (hstore ▸ h.with_operands a b)

/-- A CMD write at the head of a program is accepted. -/
theorem HostMoves.step_cmd (h : HostMoves s) (w : Word) (p : List AsmOp) :
    step (s.withProgram (.wr .cmd w :: p)) = .next ((s.withProgram p).accept w) := by
  rw [h.step_wr, State.writeReg_cmd_idle (s := s.withProgram p) h.idle]

/-- With BUSY = 0 a poll ends on its first read (R75). -/
theorem State.pollOnce_idle (hidle : s.status.busy = false) (rest : List BusOp) :
    s.pollOnce rest = { s.sawRead 0x10 s.status.word with host := rest } := by
  have hread : s.readReg .status = (s.status.word, s) := by simp [State.readReg, hidle]
  have hrec : s.recordRead (regOffset .status) = s.sawRead 0x10 s.status.word := by
    rw [State.recordRead, State.readOffset, regAt_regOffset]
    dsimp only
    rw [hread]
    rfl
  have hbit : s.status.word.getLsbD 0 = false := (statusWord_busy ..).trans hidle
  rw [State.pollOnce, hrec, hread, hbit]
  rfl

theorem HostMoves.step_poll {rest : List BusOp} (h : HostMoves s) (hhost : s.host = .poll :: rest) :
    step s = .next { s.sawRead 0x10 s.status.word with host := rest } := by
  rw [h.step_eq, State.hostTurn, hhost, ← State.pollOnce_idle h.idle]

/-- A command line and its poll: acceptance, the engine's step, and one STATUS read. -/
theorem HostMoves.runFor_command (h : HostMoves s)
    (hexec : exec i ({ s with host := .poll :: s.host }.accept (encode i)) = .next t) :
    runFor 3 (s.withProgram [.wr .cmd (encode i), .poll]) =
      .next { t with host := s.host, reads := t.reads ++ [{ offset := 0x10, value := t.status.word }] } := by
  obtain ⟨hidle, _⟩ := (exec_completes hexec).busy_done
  obtain ⟨_, _, _, _, hhost, hturns, _⟩ := (exec_completes hexec).keepsInputs
  have ht : HostMoves t := ⟨hidle, hturns.trans h.unscheduled⟩
  have hengine : step ((s.withProgram [.poll]).accept (encode i)) = .next t :=
    (step_accepted (s := s.withProgram [.poll]) h.unscheduled i).trans hexec
  rw [runFor_succ 2 (h.step_cmd _ _), runFor_succ 1 hengine, runFor_succ 0 (ht.step_poll hhost)]
  rfl

/-- Settles O6: the operand lines, then the command on the state they leave; R76's expansions are such programs. -/
theorem issuedCommandRunsWithItsOperand : Obligations.IssuedCommandRunsWithItsOperand := by
  refine ⟨fun s t i operands hops hidle hturns hexec => ?_, pseudoLines_eq_issue⟩
  have hmoves : HostMoves s := ⟨hidle, hturns⟩
  obtain ⟨a, b, hstore⟩ := s.storeOperands_eq operands
  have hstored : HostMoves (operands.foldl State.storeOperand s) := hstore ▸ hmoves.with_operands a b
  have hhost : (operands.foldl State.storeOperand s).host = s.host := by rw [hstore]
  rw [issue, hmoves.runFor_operands hops, ← hhost]
  rw [← hhost] at hexec
  exact hstored.runFor_command hexec

end Sys2Proof.Machine

/-! SUPPORT. A command's outcome depends on the operand bits R71 (30_encoding.md) says it reads, and on no other. -/

namespace Sys2Proof.Machine

variable {s : State} {i : Instr}

/-! ## Outcomes under a change of state -/

theorem mapNext_ite (f : State → State) (c : Prop) [Decidable c] (o o' : Host.Outcome State Fault Refusal) :
    mapNext f (if c then o else o') = if c then mapNext f o else mapNext f o' := apply_ite (mapNext f) c o o'

/-- Two changes that agree on the next state an outcome answers give the same outcome. -/
theorem mapNext_congr {f g : State → State} {o : Host.Outcome State Fault Refusal} (h : ∀ t, o = .next t → f t = g t) :
    mapNext f o = mapNext g o := by
  cases o with
  | next t => exact congrArg Host.Outcome.next (h t rfl)
  | fault | refused => rfl

/-! ## Operands -/

/-- `s` with other words in ARG0 and ARG1. -/
def State.withOperands (s : State) (a b : Word) : State := { s with arg0 := a, arg1 := b }

/-- R71's table: the operands `a`, `b` agree with those of `s` in every bit that the command reads. -/
def ReadsSame (s : State) (a b : Word) : Instr → Prop
  | .reserve | .count | .capacity | .set | .addRange | .restoreBegin => True
  | .popcnt8 | .restoreByte => a.extractLsb' 0 8 = s.arg0.extractLsb' 0 8
  | .remove | .findOrd | .findNext | .readByte => a = s.arg0
  | .restoreCommit => a = s.arg0 ∧ b = s.arg1

variable {a b : Word}

theorem State.withOperands_argByte (h : a.extractLsb' 0 8 = s.arg0.extractLsb' 0 8) :
    (s.withOperands a b).argByte = s.argByte := h

/-- The mode check reads no operand. -/
theorem State.onlyIn_withOperands {m : Mode} {k k' : Host.Outcome State Fault Refusal}
    (h : k' = mapNext (·.withOperands a b) k) :
    (s.withOperands a b).onlyIn m k' = mapNext (·.withOperands a b) (s.onlyIn m k) := by
  rw [State.onlyIn, State.onlyIn, mapNext_ite, h]
  rfl

theorem execReserve_withOperands (s : State) (a b : Word) :
    execReserve (s.withOperands a b) = mapNext (·.withOperands a b) (execReserve s) := by
  refine State.onlyIn_withOperands ?_
  have hscan : (s.withOperands a b).freeSlot = s.freeSlot := rfl
  rw [mapNext_ite, mapNext_ite, hscan]
  cases s.freeSlot <;> rfl

theorem execRemove_withOperands (s : State) (b : Word) :
    execRemove (s.withOperands s.arg0 b) = mapNext (·.withOperands s.arg0 b) (execRemove s) := by
  refine State.onlyIn_withOperands ?_
  rw [mapNext_ite, mapNext_ite]
  rfl

theorem execFindOrd_withOperands (s : State) (b : Word) :
    execFindOrd (s.withOperands s.arg0 b) = mapNext (·.withOperands s.arg0 b) (execFindOrd s) := by
  refine State.onlyIn_withOperands ?_
  have hscan : slotOfOrdinal (s.withOperands s.arg0 b).argIndex 0 0 (s.withOperands s.arg0 b).bytes
    = slotOfOrdinal s.argIndex 0 0 s.bytes := rfl
  rw [mapNext_ite, hscan]
  cases slotOfOrdinal s.argIndex 0 0 s.bytes <;> rfl

theorem execFindNext_withOperands (s : State) (b : Word) :
    execFindNext (s.withOperands s.arg0 b) = mapNext (·.withOperands s.arg0 b) (execFindNext s) := by
  refine State.onlyIn_withOperands ?_
  have hscan : (s.withOperands s.arg0 b).nextOccupied (s.withOperands s.arg0 b).argIndex
    = s.nextOccupied s.argIndex := rfl
  rw [hscan]
  cases s.nextOccupied s.argIndex <;> rfl

theorem execReadByte_withOperands (s : State) (b : Word) :
    execReadByte (s.withOperands s.arg0 b) = mapNext (·.withOperands s.arg0 b) (execReadByte s) := by
  rw [execReadByte, execReadByte, mapNext_ite]
  rfl

theorem execPopcnt8_withOperands (h : a.extractLsb' 0 8 = s.arg0.extractLsb' 0 8) :
    execPopcnt8 (s.withOperands a b) = mapNext (·.withOperands a b) (execPopcnt8 s) := by
  rw [execPopcnt8, execPopcnt8, State.withOperands_argByte h]
  rfl

theorem execRestoreByte_withOperands (h : a.extractLsb' 0 8 = s.arg0.extractLsb' 0 8) :
    execRestoreByte (s.withOperands a b) = mapNext (·.withOperands a b) (execRestoreByte s) := by
  refine State.onlyIn_withOperands ?_
  rw [mapNext_ite, State.withOperands_argByte h]
  rfl

/-- A command keeps its operands, so that to put them back is no change. -/
theorem mapNext_exec_operands (i : Instr) (s : State) : mapNext (·.withOperands s.arg0 s.arg1) (exec i s) = exec i s := by
  cases hexec : exec i s with
  | next t =>
    obtain ⟨h0, h1, _⟩ := (exec_completes hexec).keepsInputs
    rw [← h0, ← h1]
    rfl
  | fault | refused => rfl

/-- A command whose read operand bits stay the same answers what it answered, with the other operands in place. -/
theorem exec_withOperands (h : ReadsSame s a b i) :
    exec i (s.withOperands a b) = mapNext (·.withOperands a b) (exec i s) := by
  cases i with
  | reserve => exact execReserve_withOperands s a b
  | remove => obtain rfl : a = s.arg0 := h; exact execRemove_withOperands s b
  | findOrd => obtain rfl : a = s.arg0 := h; exact execFindOrd_withOperands s b
  | findNext => obtain rfl : a = s.arg0 := h; exact execFindNext_withOperands s b
  | readByte => obtain rfl : a = s.arg0 := h; exact execReadByte_withOperands s b
  | popcnt8 => exact execPopcnt8_withOperands h
  | restoreByte => exact execRestoreByte_withOperands h
  | count | capacity | set | addRange | restoreBegin => rfl
  | restoreCommit =>
    obtain ⟨rfl, rfl⟩ : a = s.arg0 ∧ b = s.arg1 := h
    exact (mapNext_exec_operands .restoreCommit s).symm

/-- Any other word in ARG1 is no change to the bits a command reads, RESTORE_COMMIT excepted. -/
theorem ReadsSame.arg1 (h : i ≠ .restoreCommit) (b : Word) : ReadsSame s s.arg0 b i := by
  cases i with
  | restoreCommit => exact absurd rfl h
  | reserve | count | capacity | set | addRange | restoreBegin => trivial
  | popcnt8 | restoreByte | remove | findOrd | findNext | readByte => rfl

/-- Settles O28: both clauses compare `s` with `s` under operands that agree in the bits read, and a command keeps its
operands. -/
theorem operandBitsRead : Obligations.OperandBitsRead := by
  refine ⟨fun i s v hi => ?_, fun i s v hread => ?_⟩
  · refine (exec_withOperands (ReadsSame.arg1 hi v)).trans (mapNext_congr fun t ht => ?_)
    obtain ⟨h0, _⟩ := (exec_completes ht).keepsInputs
    rw [State.withOperands, ← h0]
  · have hsame : ReadsSame s v s.arg1 i := by
      rcases hread with (rfl | rfl | rfl | rfl | rfl | rfl) | ⟨rfl | rfl, hbits⟩
      case inr.inl | inr.inr => exact hbits
      all_goals trivial
    refine (exec_withOperands hsame).trans (mapNext_congr fun t ht => ?_)
    obtain ⟨_, h1, _⟩ := (exec_completes ht).keepsInputs
    rw [State.withOperands, ← h1]

end Sys2Proof.Machine

/-! SUPPORT. A success completion, and a command whose whole effect is a value in RESULT (60_exceptions.md R183); POPCNT8
is one (40_popcount.md R90). -/

namespace Sys2Proof.Machine

/-- R183: what a success completion writes to STATUS, over a state with the OVR of the state before the command. -/
theorem Succeeded.complete {s u : State} (notFound : Bool) (hovr : u.status.ovr = s.status.ovr) :
    Succeeded s (u.complete notFound) notFound :=
  ⟨rfl, rfl, rfl, rfl, rfl, decide_eq_true_iff, hovr⟩

/-- A command that only answers a value completes with success and leaves everything but RESULT and STATUS. -/
theorem State.answer_frame (s : State) (v : Nat) :
    Succeeded s (s.answer v) false ∧ KeepsInputs s (s.answer v) ∧ KeepsStructure s (s.answer v) :=
  ⟨.complete false rfl, (Completes.answer s v).keepsInputs, .of_eq rfl rfl rfl rfl rfl rfl⟩

/-- R90, R91: the ROM entry that POPCNT8 answers is the number of 1 bits of ARG0[7:0]. -/
theorem exec_popcnt8 (s : State) : exec .popcnt8 s = .next (s.answer (popcount8 s.argByte)) := by
  rw [← popcnt_toNat]
  rfl

/-- A popcount fits in RESULT. -/
theorem zext32_popcount8_toNat (v : Byte) : (zext32 (popcount8 v)).toNat = popcount8 v :=
  zext32_toNat ((popcount8_le v).trans_lt (by decide))

/-- Settles O32: POPCNT8 answers the popcount of its operand byte, and an answer changes RESULT and STATUS only. -/
theorem popcnt8CountsOnes : Obligations.Popcnt8CountsOnes :=
  ⟨decode_encode .popcnt8, fun s =>
    ⟨s.answer (popcount8 s.argByte), exec_popcnt8 s, zext32_popcount8_toNat s.argByte, s.answer_frame _⟩⟩

end Sys2Proof.Machine

/-! SUPPORT. COUNT and CAPACITY (41_query.md R100, R101): each answers one number of the state in either mode, and under the
invariants (10_state.md R45) the number fits in RESULT. -/

namespace Sys2Proof.Machine

/-- R100: COUNT has no mode check. -/
theorem exec_count (s : State) : exec .count s = .next (s.answer s.count) := rfl

/-- R101: CAPACITY has no mode check. -/
theorem exec_capacity (s : State) : exec .capacity s = .next (s.answer s.cap) := rfl

/-- R45(b): what COUNT answers is the number of occupied slots, over the bytes restored so far in RESTORING. -/
theorem Inv.zext32_count_toNat {s : State} (hinv : Inv s) : (zext32 s.count).toNat = s.total := by
  rw [zext32_toNat hinv.count_lt, hinv.countTotal]

/-- R45(a): the capacity is at most 8 slots for each byte of storage. -/
theorem Inv.cap_le {s : State} (hinv : Inv s) : s.cap ≤ 8 * s.config.maxBytes :=
  Nat.mul_le_mul_left 8 hinv.bound

/-- Settles O33: COUNT answers the count, and an answer changes RESULT and STATUS only. -/
theorem countGivesOccupied : Obligations.CountGivesOccupied :=
  ⟨decode_encode .count, fun s =>
    ⟨s.answer s.count, exec_count s, rfl, Inv.zext32_count_toNat, s.answer_frame _⟩⟩

/-- Settles O34: CAPACITY answers the capacity, and an answer changes RESULT and STATUS only. -/
theorem capacityGivesEightL : Obligations.CapacityGivesEightL := by
  refine ⟨decode_encode .capacity, fun s =>
    ⟨s.answer s.cap, exec_capacity s, rfl, fun hinv => ?_, s.answer_frame _⟩⟩
  have hexact : (s.answer s.cap).result.toNat = s.cap := zext32_toNat hinv.cap_lt
  exact ⟨hexact, hexact.trans_le hinv.cap_le⟩

end Sys2Proof.Machine

/-! SUPPORT. RESERVE and REMOVE (42_allocate.md R110 to R112): the next state of each branch, and what it leaves in the
slots. -/

namespace Sys2Proof.Machine

variable {s t u : State} {i : Nat}

/-! ## One byte written -/

theorem State.memByte_of_write (hw : Memory.wf s.buf = true) {B : Nat} {v : Byte} (h : t.buf = memWrite s.buf B v) :
    t.memByte B = v := by
  rw [State.memByte, h, memRead_memWrite_same hw]

theorem State.memByte_of_write_other {B : Nat} {v : Byte} (h : t.buf = memWrite s.buf B v) {a : Nat} (ha : a ≠ B) :
    t.memByte a = s.memByte a := by
  rw [State.memByte, h, memRead_memWrite_other _ _ ha, State.memByte]

/-! ## The branches of RESERVE -/

theorem exec_reserve_badMode (hmode : s.mode = .restoring) : exec .reserve s = .next (s.raise .badMode) :=
  State.onlyIn_neg _ (hmode ▸ nofun)

theorem exec_reserve_full (hmode : s.mode = .normal) (hfull : s.count = s.cap) (htop : s.len = s.config.maxBytes) :
    exec .reserve s = .next (s.raise .full) :=
  (State.onlyIn_pos _ hmode).trans (by rw [if_pos hfull, if_pos htop])

theorem exec_reserve_grow (hmode : s.mode = .normal) (hfull : s.count = s.cap) (hroom : s.len ≠ s.config.maxBytes) :
    exec .reserve s = .next s.grow :=
  (State.onlyIn_pos _ hmode).trans (by rw [if_pos hfull, if_neg hroom])

theorem exec_reserve_allocate (hmode : s.mode = .normal) (hfree : s.count ≠ s.cap) (hslot : s.freeSlot = some i) :
    exec .reserve s = .next (s.allocate i) :=
  (State.onlyIn_pos _ hmode).trans (by rw [if_neg hfree, hslot])

/-! ## The nearest free slot -/

/-- R112: how far slot `i` lies from the cursor, going up and around. -/
def State.scanDistance (s : State) (i : Nat) : Nat := (i + s.cap - s.cursor) % s.cap

/-- The scan comes to a slot after its distance. -/
theorem State.cursor_add_scanDistance (hcursor : s.cursor ≤ s.cap) (hi : i < s.cap) :
    (s.cursor + s.scanDistance i) % s.cap = i := by
  rw [State.scanDistance, Nat.add_mod_mod, Nat.add_sub_of_le (hcursor.trans (Nat.le_add_left _ _)), Nat.add_mod_right,
    Nat.mod_eq_of_lt hi]

/-- The `k`-th slot of the scan lies at distance `k`. -/
theorem State.scanDistance_scanned (hcursor : s.cursor ≤ s.cap) {k : Nat} (hk : k < s.cap) :
    s.scanDistance ((s.cursor + k) % s.cap) = k := by
  have hsum : s.cursor + k + (s.cap - s.cursor) = k + s.cap := by omega
  rw [State.scanDistance, Nat.add_sub_assoc hcursor, Nat.mod_add_mod, hsum, Nat.add_mod_right, Nat.mod_eq_of_lt hk]

/-- R112: of the free slots, the scan takes the one nearest to the cursor: it has passed every slot at a smaller
distance, and found it occupied. -/
theorem State.freeSlot_nearest (hcursor : s.cursor ≤ s.cap) (hslot : s.freeSlot = some i) {j : Nat} (hj : j < s.cap)
    (hfree : s.slotbit j = false) : s.scanDistance i ≤ s.scanDistance j := by
  obtain ⟨_, _, k, hk, rfl, hpassed⟩ := State.freeSlot_some hslot
  rw [State.scanDistance_scanned hcursor hk]
  by_contra hlt
  have hocc := hpassed _ (Nat.lt_of_not_le hlt)
  rw [State.cursor_add_scanDistance hcursor hj, hfree] at hocc
  cases hocc

/-! ## What RESERVE leaves -/

theorem State.slotbit_allocate (hw : Memory.wf s.buf = true) (i j : Nat) :
    (s.allocate i).slotbit j = (decide (j = i) || s.slotbit j) :=
  State.slotbit_setbit hw i j

/-- R110: the slot of a full buffer's RESERVE is the lowest of the new byte. -/
theorem State.slotbit_grow (hw : Memory.wf s.buf = true) : s.grow.slotbit s.cap = true := by
  have hbyte : s.cap / 8 = s.len := Nat.mul_div_cancel_left _ (by decide)
  have hbit : s.cap % 8 = 0 := Nat.mul_mod_right _ _
  have happend : s.grow.slotbit s.cap = (s.bufAppend 0x01#8).slotbit s.cap := rfl
  rw [happend, State.slotbit_bufAppend hw, if_pos hbyte, hbit]
  rfl

theorem State.slotbit_grow_below {j : Nat} (hj : j < s.cap) : s.grow.slotbit j = s.slotbit j :=
  State.slotbit_congr (State.memByte_append ⟨_, rfl⟩ (State.byte_lt_len hj))

theorem State.grow_frame (s : State) : Succeeded s s.grow false ∧ KeepsInputs s s.grow :=
  ⟨.complete false rfl, .refl s⟩

theorem State.allocate_frame (s : State) (i : Nat) : Succeeded s (s.allocate i) false ∧ KeepsInputs s (s.allocate i) :=
  ⟨.complete false rfl, .refl s⟩

/-- Settles O35, branch by branch; the slot below a full capacity is the nearest free one. -/
theorem reserveAllocatesOrGrows : Obligations.ReserveAllocatesOrGrows := by
  refine ⟨decode_encode .reserve, fun s hinv hmode hfull hroom => ?_, fun s hinv hmode hne => ?_, fun s => ⟨?_, ?_⟩⟩
  · exact ⟨s.grow, exec_reserve_grow hmode hfull hroom, rfl, State.memByte_of_write hinv.canonical rfl,
      fun _ ha => State.memByte_of_write_other rfl ha, rfl, rfl, zext32_toNat hinv.cap_lt, hmode, rfl, s.grow_frame⟩
  · obtain ⟨i, hslot⟩ := State.freeSlot_isSome (hinv.countTotal ▸ hne)
    obtain ⟨below, free, _⟩ := State.freeSlot_some hslot
    have hcursor : s.cursor < s.cap := hinv.cursorBelow hmode (Nat.zero_lt_of_lt (State.byte_lt_len below))
    exact ⟨i, s.allocate i, below, free, fun _ hj hfree => State.freeSlot_nearest hcursor.le hslot hj hfree,
      exec_reserve_allocate hmode hne hslot, zext32_toNat (below.trans hinv.cap_lt),
      State.slotbit_allocate hinv.canonical i, fun _ ha => State.memByte_of_write_other rfl ha, rfl, rfl, rfl, hmode, rfl,
      s.allocate_frame i⟩
  · exact fun hmode => ⟨_, exec_reserve_badMode hmode, s.raise_onlyFails .badMode⟩
  · exact fun hmode hfull htop => ⟨_, exec_reserve_full hmode hfull htop, s.raise_onlyFails .full⟩

/-! ## REMOVE -/

/-- R111: what REMOVE of an occupied slot leaves. -/
def State.removed (s : State) : State := State.complete { s.clearbit s.argIndex with count := s.count - 1 } false

theorem exec_remove_badMode (hmode : s.mode = .restoring) : exec .remove s = .next (s.raise .badMode) :=
  State.onlyIn_neg _ (hmode ▸ nofun)

theorem exec_remove_indexRange (hmode : s.mode = .normal) (habove : s.cap ≤ s.argIndex) :
    exec .remove s = .next (s.raise .indexRange) :=
  (State.onlyIn_pos _ hmode).trans (if_pos habove)

theorem exec_remove_free (hmode : s.mode = .normal) (hbelow : s.argIndex < s.cap)
    (hfree : s.slotbit s.argIndex = false) : exec .remove s = .next (s.complete false) :=
  (State.onlyIn_pos _ hmode).trans (by rw [if_neg (Nat.not_le.mpr hbelow), hfree]; rfl)

theorem exec_remove_occupied (hmode : s.mode = .normal) (hbelow : s.argIndex < s.cap)
    (hocc : s.slotbit s.argIndex = true) : exec .remove s = .next s.removed :=
  (State.onlyIn_pos _ hmode).trans (by rw [if_neg (Nat.not_le.mpr hbelow), if_pos hocc]; rfl)

theorem State.slotbit_removed (hw : Memory.wf s.buf = true) (j : Nat) :
    s.removed.slotbit j = (decide (j ≠ s.argIndex) && s.slotbit j) :=
  State.slotbit_clearbit hw s.argIndex j

theorem State.slotbit_removed_self (hw : Memory.wf s.buf = true) : s.removed.slotbit s.argIndex = false := by
  rw [State.slotbit_removed hw, decide_eq_false (not_not_intro rfl), Bool.false_and]

/-- Settles O36, branch by branch. -/
theorem removeFreesOneSlot : Obligations.RemoveFreesOneSlot := by
  refine ⟨decode_encode .remove, fun s => ⟨fun hmode => ?_, fun hmode habove => ?_, fun hmode hbelow hfree => ?_,
    fun hw hmode hbelow hocc => ?_⟩⟩
  · exact ⟨_, exec_remove_badMode hmode, s.raise_onlyFails .badMode⟩
  · exact ⟨_, exec_remove_indexRange hmode habove, s.raise_onlyFails .indexRange⟩
  · exact ⟨_, exec_remove_free hmode hbelow hfree, .complete false rfl, .refl s, .of_eq rfl rfl rfl rfl rfl rfl, rfl⟩
  · exact ⟨s.removed, exec_remove_occupied hmode hbelow hocc, .complete false rfl, .refl s, rfl, rfl,
      State.slotbit_removed hw, fun _ ha => State.memByte_of_write_other rfl ha, rfl, hmode, rfl, rfl⟩

end Sys2Proof.Machine

/-! SUPPORT. The slots that a run of commands allocates, and one allocated and freed again (42_allocate.md R114). -/

namespace Sys2Proof.Machine

variable {s t u : State}

/-! ## Allocation from one state to another -/

/-- From `s` the NORMAL state `t` is reached with the slots `taken` allocated and none freed: each was free before if it
existed, and is occupied after. -/
structure Allocates (s : State) (taken : List Nat) (t : State) : Prop where
  inv : Inv t
  mode : t.mode = .normal
  config : t.config = s.config
  nodup : taken.Nodup
  count : t.count = s.count + taken.length
  cap : s.cap ≤ t.cap
  keepsOccupied : ∀ j < s.cap, s.slotbit j = true → t.slotbit j = true
  takenBelow : ∀ j ∈ taken, j < t.cap
  takenOccupied : ∀ j ∈ taken, t.slotbit j = true
  takenFree : ∀ j ∈ taken, j < s.cap → s.slotbit j = false

/-- The structure kept, no slot is allocated. -/
theorem Allocates.none (hinv : Inv t) (hmode : s.mode = .normal) (hconfig : t.config = s.config)
    (h : KeepsStructure s t) : Allocates s [] t := by
  obtain ⟨⟨hlen, hbytes⟩, hcount, _, hkeep, _⟩ := h
  exact
    { inv := hinv
      mode := hkeep.trans hmode
      config := hconfig
      nodup := .nil
      count := hcount
      cap := (State.cap_of_len hlen).ge
      keepsOccupied := fun j _ hj => (State.slotbit_congr (hbytes _)).trans hj
      takenBelow := nofun
      takenOccupied := nofun
      takenFree := nofun }

/-- One slot allocated. -/
theorem Allocates.one {i : Nat} (hinv : Inv t) (hmode : t.mode = .normal) (hconfig : t.config = s.config)
    (hcount : t.count = s.count + 1) (hcap : s.cap ≤ t.cap) (hkeep : ∀ j < s.cap, s.slotbit j = true → t.slotbit j = true)
    (hbelow : i < t.cap) (hocc : t.slotbit i = true) (hfree : i < s.cap → s.slotbit i = false) : Allocates s [i] t where
  inv := hinv
  mode := hmode
  config := hconfig
  nodup := List.nodup_singleton i
  count := hcount
  cap := hcap
  keepsOccupied := hkeep
  takenBelow := List.forall_mem_singleton.mpr hbelow
  takenOccupied := List.forall_mem_singleton.mpr hocc
  takenFree := List.forall_mem_singleton.mpr hfree

/-- A slot allocated first is occupied when the later ones are allocated, so it is none of them. -/
theorem Allocates.trans {xs ys : List Nat} (h : Allocates s xs t) (h' : Allocates t ys u) : Allocates s (xs ++ ys) u where
  inv := h'.inv
  mode := h'.mode
  config := h'.config.trans h.config
  nodup := by
    refine h.nodup.append h'.nodup fun j hx hy => ?_
    have hfree := h'.takenFree j hy (h.takenBelow j hx)
    rw [h.takenOccupied j hx] at hfree
    cases hfree
  count := by rw [h'.count, h.count, List.length_append, Nat.add_assoc]
  cap := h.cap.trans h'.cap
  keepsOccupied := fun j hj hocc => h'.keepsOccupied j (hj.trans_le h.cap) (h.keepsOccupied j hj hocc)
  takenBelow := fun j hj => (List.mem_append.mp hj).elim (fun hx => (h.takenBelow j hx).trans_le h'.cap) (h'.takenBelow j)
  takenOccupied := fun j hj => (List.mem_append.mp hj).elim
    (fun hx => h'.keepsOccupied j (h.takenBelow j hx) (h.takenOccupied j hx)) (h'.takenOccupied j)
  takenFree := fun j hj hlt => by
    rcases List.mem_append.mp hj with hx | hy
    · exact h.takenFree j hx hlt
    · have hfree := h'.takenFree j hy (hlt.trans_le h.cap)
      by_contra hocc
      rw [h.keepsOccupied j hlt (by simpa using hocc)] at hfree
      cases hfree

/-! ## A buffer full at MAX_BYTES -/

/-- Every slot is occupied and the buffer has reached MAX_BYTES: the state in which RESERVE reports FULL (R110). -/
def State.Exhausted (s : State) : Prop := s.count = s.cap ∧ s.len = s.config.maxBytes

/-- Without a REMOVE a buffer full at MAX_BYTES stays so. -/
theorem Allocates.exhausted {taken : List Nat} (h : Allocates s taken t) (hs : s.Exhausted) : t.Exhausted := by
  obtain ⟨hfull, htop⟩ := hs
  have hcap := h.cap
  have hcount := h.count
  have hbound := h.inv.bound
  have htotal := t.total_le_cap
  rw [← h.inv.countTotal] at htotal
  simp only [State.Exhausted, State.cap, h.config] at hfull htop hcap hbound htotal ⊢
  omega

/-! ## The commands -/

theorem Allocates.grow (hinv : Inv s) (hmode : s.mode = .normal) (h : exec .reserve s = .next s.grow) :
    Allocates s [s.cap] s.grow := by
  have hcap : s.cap < s.grow.cap := Nat.mul_lt_mul_of_pos_left (Nat.lt_succ_self _) (by decide)
  exact .one (exec_inv hinv h) hmode rfl rfl hcap.le (fun j hj hocc => (State.slotbit_grow_below hj).trans hocc) hcap
    (State.slotbit_grow hinv.canonical) (fun hlt => absurd hlt (lt_irrefl _))

theorem Allocates.allocate {i : Nat} (hinv : Inv s) (hmode : s.mode = .normal) (below : i < s.cap)
    (free : s.slotbit i = false) (h : exec .reserve s = .next (s.allocate i)) : Allocates s [i] (s.allocate i) := by
  refine .one (exec_inv hinv h) hmode rfl rfl le_rfl (fun j _ hocc => ?_) below ?_ (fun _ => free)
  · rw [State.slotbit_allocate hinv.canonical, hocc, Bool.or_true]
  · rw [State.slotbit_allocate hinv.canonical, decide_eq_true rfl, Bool.true_or]

/-- What a command that has answered `t` adds to the slots of a run: RESULT, if it is a RESERVE without error. -/
def slotsTaken (i : Instr) (t : State) : List Nat :=
  if i = .reserve ∧ t.status.err = false then [t.result.toNat] else []

theorem slotsTaken_reserve (herr : t.status.err = false) : slotsTaken .reserve t = [t.result.toNat] :=
  if_pos ⟨rfl, herr⟩

theorem slotsTaken_failed {i : Instr} (herr : t.status.err = true) : slotsTaken i t = [] :=
  if_neg fun ⟨_, hno⟩ => Bool.noConfusion (herr.symm.trans hno)

theorem slotsTaken_other {i : Instr} (hi : i ≠ .reserve) : slotsTaken i t = [] := if_neg fun ⟨hc, _⟩ => hi hc

/-- R114: in NORMAL mode a RESERVE allocates the one slot in RESULT, or errs on a buffer full at MAX_BYTES. -/
theorem exec_reserve_allocates (hinv : Inv s) (hmode : s.mode = .normal) (h : exec .reserve s = .next t) :
    (t.status.err = false ∧ Allocates s [t.result.toNat] t) ∨
    (t.status.err = true ∧ s.Exhausted ∧ Allocates s [] t) := by
  rcases execReserve_next h with ⟨hne, _⟩ | ⟨_, hfull, htop, rfl⟩ | ⟨_, _, _, rfl⟩ | ⟨_, _, i, hslot, rfl⟩
  · exact absurd hmode hne
  · exact .inr ⟨rfl, ⟨hfull, htop⟩, .none (exec_inv hinv h) hmode rfl (.of_eq rfl rfl rfl rfl rfl rfl)⟩
  · have hresult : s.grow.result.toNat = s.cap := zext32_toNat hinv.cap_lt
    exact .inl ⟨rfl, hresult ▸ .grow hinv hmode h⟩
  · obtain ⟨below, free, _⟩ := State.freeSlot_some hslot
    have hresult : (s.allocate i).result.toNat = i := zext32_toNat (below.trans hinv.cap_lt)
    exact .inl ⟨rfl, hresult.symm ▸ .allocate hinv hmode below free h⟩

/-- In NORMAL mode a command that is no RESERVE, REMOVE or RESTORE_BEGIN leaves the structure: RESTORE_BYTE and
RESTORE_COMMIT are turned away with BAD_MODE (60_exceptions.md R187), and the others never write it. -/
theorem exec_normal_keepsStructure {i : Instr} (hmode : s.mode = .normal) (hreserve : i ≠ .reserve)
    (hremove : i ≠ .remove) (hbegin : i ≠ .restoreBegin) (h : exec i s = .next t) : KeepsStructure s t := by
  have hbad : KeepsStructure s (s.raise .badMode) := .of_eq rfl rfl rfl rfl rfl rfl
  by_cases hbyte : i = .restoreByte
  · subst hbyte
    rcases execRestoreByte_next h with ⟨_, rfl⟩ | ⟨hr, _⟩ | ⟨hr, _⟩
    · exact hbad
    all_goals cases hmode.symm.trans hr
  by_cases hcommit : i = .restoreCommit
  · subst hcommit
    rcases execRestoreCommit_next h with ⟨_, rfl⟩ | ⟨hr, _⟩ | ⟨hr, _⟩
    · exact hbad
    all_goals cases hmode.symm.trans hr
  obtain ⟨_, hkeeps, _⟩ := commandFrames i s t h
  exact hkeeps hreserve hremove hbegin hbyte hcommit

/-- In NORMAL mode a command that is no REMOVE or RESTORE_BEGIN allocates the slots it adds to a run: one for a RESERVE,
unless the buffer is full at MAX_BYTES. -/
theorem exec_allocates {i : Instr} (hinv : Inv s) (hmode : s.mode = .normal) (hremove : i ≠ .remove)
    (hbegin : i ≠ .restoreBegin) (h : exec i s = .next t) :
    Allocates s (slotsTaken i t) t ∧
      (¬ s.Exhausted → (slotsTaken i t).length = if i = .reserve then 1 else 0) := by
  by_cases hi : i = .reserve
  · subst hi
    rw [if_pos rfl]
    rcases exec_reserve_allocates hinv hmode h with ⟨herr, halloc⟩ | ⟨herr, htop, halloc⟩
    · rw [slotsTaken_reserve herr]
      exact ⟨halloc, fun _ => rfl⟩
    · rw [slotsTaken_failed herr]
      exact ⟨halloc, absurd htop⟩
  · rw [slotsTaken_other hi, if_neg hi]
    have hkeeps := exec_normal_keepsStructure hmode hi hremove hbegin h
    exact ⟨.none (exec_inv hinv h) hmode (exec_completes h).config hkeeps, fun _ => rfl⟩

/-! ## Runs -/

/-- A run's slots are those of its first command and those of the rest. -/
theorem performRun_append {c : Issued} {rest : List Issued} {slots : List Nat}
    (h : exec c.cmd (s.withOperands c.arg0 c.arg1) = .next t) (hrest : performRun rest t = some (slots, u)) :
    performRun (c :: rest) s = some (slotsTaken c.cmd t ++ slots, u) := by
  rw [performRun_cons h hrest, slotsTaken]
  split <;> rfl

theorem Inv.withOperands (hinv : Inv s) (a b : Word) : Inv (s.withOperands a b) :=
  hinv.of_same ⟨rfl, rfl, rfl, rfl, rfl, rfl⟩ hinv.restoringBit

theorem Allocates.withOperands (hinv : Inv s) (hmode : s.mode = .normal) (a b : Word) :
    Allocates s [] (s.withOperands a b) :=
  .none (hinv.withOperands a b) hmode rfl (.of_eq rfl rfl rfl rfl rfl rfl)

/-- A run without REMOVE and RESTORE_BEGIN allocates the slots it returns; where it does not end full at MAX_BYTES, no
RESERVE of it has met a buffer full at MAX_BYTES, so each has returned one. -/
theorem performRun_allocates (cs : List Issued) (hinv : Inv s) (hmode : s.mode = .normal)
    (hcs : ∀ c ∈ cs, c.cmd ≠ .remove ∧ c.cmd ≠ .restoreBegin) :
    ∃ slots t, performRun cs s = some (slots, t) ∧ Allocates s slots t ∧
      (¬ t.Exhausted → slots.length = cs.countP fun c => decide (c.cmd = .reserve)) := by
  induction cs generalizing s with
  | nil => exact ⟨[], s, performRun_nil s, .none hinv hmode rfl (.of_eq rfl rfl rfl rfl rfl rfl), fun _ => rfl⟩
  | cons c rest ih =>
    obtain ⟨⟨hremove, hbegin⟩, hrest⟩ := List.forall_mem_cons.mp hcs
    have hstore := Allocates.withOperands hinv hmode c.arg0 c.arg1
    obtain ⟨t, hexec⟩ := exec_answers hstore.inv.countTotal c.cmd
    obtain ⟨hfirst, hone⟩ := exec_allocates hstore.inv hstore.mode hremove hbegin hexec
    obtain ⟨slots, u, hrun, hslots, hall⟩ := ih hfirst.inv hfirst.mode hrest
    have hboth := hfirst.trans hslots
    refine ⟨_, u, performRun_append hexec hrun, hstore.trans hboth, fun hu => ?_⟩
    rw [List.length_append, hone fun htop => hu (hboth.exhausted htop), hall hu, List.countP_cons, Nat.add_comm]
    simp only [decide_eq_true_eq]

/-- Settles O37, by what a run allocates. -/
theorem reservesReturnDistinctSlots : Obligations.ReservesReturnDistinctSlots := by
  intro cs s hinv hmode hcs
  obtain ⟨slots, t, hrun, h, hall⟩ := performRun_allocates cs hinv hmode hcs
  exact ⟨slots, t, hrun, h.nodup, h.count, h.cap,
    fun i hi => ⟨h.takenBelow i hi, h.takenOccupied i hi, h.takenFree i hi⟩, fun hroom => hall (not_and_or.mpr hroom)⟩

/-! ## Allocate and free -/

theorem succeedsWith_eq_some {i : Instr} {a b : Word} :
    succeedsWith i a b s = some t ↔ exec i (s.withOperands a b) = .next t ∧ t.status.err = false := by
  rw [succeedsWith, ← State.withOperands]
  cases exec i (s.withOperands a b) with
  | next u =>
    rw [next_inj, and_comm]
    simp only [Option.ite_none_left_eq_some, Option.some.injEq]
    exact and_congr_left fun hu => by rw [hu, Bool.not_eq_true]
  | fault r | refused r => exact ⟨nofun, nofun⟩

/-- A REMOVE without error of an occupied slot frees it. -/
theorem exec_remove_of_occupied (hocc : s.slotbit s.argIndex = true) (h : exec .remove s = .next t)
    (herr : t.status.err = false) : t = s.removed := by
  rcases execRemove_next h with ⟨_, rfl⟩ | ⟨_, _, rfl⟩ | ⟨_, _, _, rfl⟩ | ⟨_, _, hfree, _⟩
  · cases herr
  · cases herr
  · rfl
  · rw [hocc] at hfree
    cases hfree

/-- Settles O38: the RESERVE allocates the slot in RESULT, so the REMOVE finds it occupied; the total is the count
(10_state.md R45(b)). -/
theorem reserveThenRemoveRoundTrip : Obligations.ReserveThenRemoveRoundTrip := by
  intro s t u hinv hmode hreserve hremove
  obtain ⟨hexec, herr⟩ := succeedsWith_eq_some.mp hreserve
  obtain ⟨hexec', herr'⟩ := succeedsWith_eq_some.mp hremove
  rcases exec_reserve_allocates hinv hmode hexec with ⟨_, h⟩ | ⟨herrs, _⟩
  swap
  · rw [herr] at herrs
    cases herrs
  have hinv' := h.inv.withOperands t.result t.arg1
  have hu := exec_inv hinv' hexec'
  have hocc := h.takenOccupied _ (List.mem_singleton_self t.result.toNat)
  obtain rfl := exec_remove_of_occupied (s := t.withOperands t.result t.arg1) hocc hexec' herr'
  have hcount : t.count - 1 = s.count := by rw [h.count]; rfl
  refine ⟨hcount, ?_, ?_⟩
  · rw [← hu.countTotal, ← hinv.countTotal]
    exact hcount
  · exact State.slotbit_removed_self hinv'.canonical

end Sys2Proof.Machine

/-! SUPPORT. FIND_ORD and FIND_NEXT (43_search.md R130, R131): the byte-skipping searches equal the closed forms of R132
over single slots, and the two enumerate the occupied slots (R134). -/

namespace Sys2Proof.Machine

variable {s t : State} {i j k start : Nat}

/-! ## Bytes as slots -/

/-- The bits of `bytes`, the first of which is byte `B`, are `p` of their slot numbers. The searches' lemmas speak of
every such list, because FIND_NEXT masks its first byte. -/
def ShowsSlots (p : Nat → Bool) (B : Nat) (bytes : List Byte) : Prop :=
  ∀ n (hn : n < bytes.length), ∀ b < 8, bytes[n].getLsbD b = p (8 * (B + n) + b)

theorem ShowsSlots.head {p : Nat → Bool} {B : Nat} {v : Byte} {rest : List Byte} (h : ShowsSlots p B (v :: rest)) :
    ∀ b < 8, v.getLsbD b = p (8 * B + b) :=
  h 0 (Nat.zero_lt_succ _)

theorem ShowsSlots.tail {p : Nat → Bool} {B : Nat} {v : Byte} {rest : List Byte} (h : ShowsSlots p B (v :: rest)) :
    ShowsSlots p (B + 1) rest := fun n hn b hb => by
  rw [Nat.add_assoc, Nat.add_comm 1 n]
  exact h (n + 1) (Nat.succ_lt_succ hn) b hb

/-- 10_state.md R21: slot `8 * B + b` is bit `b` of byte `B`. -/
theorem State.slotbit_in_byte (s : State) (B : Nat) {b : Nat} (hb : b < 8) :
    s.slotbit (8 * B + b) = (s.memByte B).getLsbD b := by
  rw [State.slotbit, show (8 * B + b) / 8 = B by omega, show (8 * B + b) % 8 = b by omega]

theorem State.bytes_showsSlots (s : State) : ShowsSlots s.slotbit 0 s.bytes := fun n hn b hb => by
  rw [s.bytes_getElem hn, Nat.zero_add, s.slotbit_in_byte n hb]

/-! ## FIND_ORD's closed form -/

/-- R132: `i` is an occupied slot below the capacity with `k` occupied slots below it. -/
structure SlotOfRank (s : State) (k i : Nat) : Prop where
  below : i < s.cap
  occupied : s.slotbit i = true
  rank : s.rank i = k

/-- A smaller slot has a smaller rank, so ordinals and their slots are in the same order. -/
theorem SlotOfRank.lt {k' : Nat} (h : SlotOfRank s k i) (h' : SlotOfRank s k' j) (hlt : k < k') : i < j := by
  by_contra hle
  have hmono := s.rank_mono (Nat.le_of_not_lt hle)
  rw [h.rank, h'.rank] at hmono
  omega

theorem SlotOfRank.unique (h : SlotOfRank s k i) (h' : SlotOfRank s k j) : j = i := by
  have hrank : s.rank i = s.rank j := h.rank.trans h'.rank.symm
  rcases Nat.lt_trichotomy j i with hlt | heq | hgt
  · exact absurd hrank (s.rank_lt h'.occupied hlt).ne'
  · exact heq
  · exact absurd hrank (s.rank_lt h.occupied hgt).ne

/-- R130's inner loop from bit `b` on, the rank of that bit's slot having been passed. -/
theorem bitOfOrdinal_slotOfRank {v : Byte} {ord B : Nat} (hv : ∀ b < 8, v.getLsbD b = s.slotbit (8 * B + b))
    (hB : 8 * (B + 1) ≤ s.cap) {n : Nat} :
    ∀ {b : Nat}, b + n = 8 → bitOfOrdinal v ord (s.rank (8 * B + b)) (List.range' b n) = some i →
      SlotOfRank s ord (8 * B + i) := by
  induction n with
  | zero => exact fun _ h => nomatch h
  | succ n ih =>
    intro b hb h
    have hrest := ih (b := b + 1) (by omega)
    rw [← Nat.add_assoc, s.rank_succ] at hrest
    rw [List.range'_succ, bitOfOrdinal, hv b (by omega)] at h
    cases hocc : s.slotbit (8 * B + b) <;> rw [hocc] at h hrest
    case false => exact hrest h
    case true =>
      rw [if_pos rfl] at h
      split at h
      · cases h
        exact ⟨by omega, hocc, ‹_›⟩
      · exact hrest h

/-- R130's outer loop from byte `B` on, the rank at its first slot having been passed. -/
theorem slotOfOrdinal_slotOfRank {ord : Nat} {bytes : List Byte} :
    ∀ {B : Nat}, ShowsSlots s.slotbit B bytes → 8 * (B + bytes.length) = s.cap →
      slotOfOrdinal ord B (s.rank (8 * B)) bytes = some i → SlotOfRank s ord i := by
  induction bytes with
  | nil => exact fun _ _ h => nomatch h
  | cons v rest ih =>
    intro B hshows hcap h
    rw [List.length_cons] at hcap
    have hpop : popcount8 v = popcount8 (s.memByte B) :=
      List.countP_congr fun b hb => by
        have hb := List.mem_range.mp hb
        rw [hshows.head b hb, s.slotbit_in_byte B hb]
    rw [slotOfOrdinal, popcnt_toNat, hpop, ← s.rank_byte B] at h
    split at h
    · obtain ⟨b, hb, rfl⟩ := Option.map_eq_some_iff.mp h
      exact bitOfOrdinal_slotOfRank hshows.head (by omega) (b := 0) rfl (List.range_eq_range' ▸ hb)
    · exact ih hshows.tail (by omega) h

/-- R130, R132: what FIND_ORD's scan of the whole buffer finds. -/
theorem State.slotOfOrdinal_bytes {ord : Nat} (h : slotOfOrdinal ord 0 0 s.bytes = some i) : SlotOfRank s ord i :=
  slotOfOrdinal_slotOfRank s.bytes_showsSlots (by rw [s.bytes_length, Nat.zero_add]; rfl) h

/-! ## FIND_ORD -/

theorem exec_findOrd_badMode (hmode : s.mode = .restoring) : exec .findOrd s = .next (s.raise .badMode) :=
  State.onlyIn_neg _ (hmode ▸ nofun)

theorem exec_findOrd_ordinalRange (hmode : s.mode = .normal) (habove : s.count ≤ s.argIndex) :
    exec .findOrd s = .next (s.raise .ordinalRange) :=
  (State.onlyIn_pos _ hmode).trans (if_pos habove)

/-- R132: below the count FIND_ORD answers the slot of that rank. -/
theorem exec_findOrd_answer (hcount : s.count = s.total) (hmode : s.mode = .normal) (hord : s.argIndex < s.count) :
    ∃ i, SlotOfRank s s.argIndex i ∧ exec .findOrd s = .next (s.answer i) := by
  obtain ⟨t, ht⟩ := execFindOrd_answers hcount
  rcases execFindOrd_next ht with ⟨hne, _⟩ | ⟨_, habove, _⟩ | ⟨_, _, i, hscan, rfl⟩
  · exact absurd hmode hne
  · exact absurd hord (Nat.not_lt.mpr habove)
  · exact ⟨i, State.slotOfOrdinal_bytes hscan, ht⟩

/-- R15: a slot number below the capacity fits in RESULT. -/
theorem Inv.answer_result (hinv : Inv s) (h : i < s.cap) : (s.answer i).result.toNat = i :=
  zext32_toNat (h.trans hinv.cap_lt)

/-- Settles O39: below the count by the closed form, whose slot is unique; else branch by branch. -/
theorem findOrdSelectsByRank : Obligations.FindOrdSelectsByRank := by
  refine ⟨decode_encode .findOrd, fun s hinv hmode hord => ?_, fun s => ⟨fun hmode => ?_, fun hmode habove => ?_⟩⟩
  · obtain ⟨i, hi, hexec⟩ := exec_findOrd_answer hinv.countTotal hmode hord
    refine ⟨s.answer i, hexec, ?_⟩
    rw [hinv.answer_result hi.below]
    exact ⟨hi.below, hi.occupied, hi.rank, fun j hj hocc hrank => hi.unique ⟨hj, hocc, hrank⟩, s.answer_frame i⟩
  · exact ⟨_, exec_findOrd_badMode hmode, s.raise_onlyFails .badMode⟩
  · exact ⟨_, exec_findOrd_ordinalRange hmode habove, s.raise_onlyFails .ordinalRange⟩

/-! ## FIND_NEXT's closed form -/

/-- `lzs8` of a byte is where its first 1 is found, if there is one (00_scope.md R14). -/
theorem find?_bit (v : Byte) : (List.range 8).find? (fun b => v.getLsbD b) = if v = 0 then none else some (lzs8 v) := by
  cases hfind : (List.range 8).find? fun b => v.getLsbD b with
  | none =>
    have hzero : v = 0 := BitVec.eq_of_getLsbD_eq fun b hb => by
      simpa using List.find?_eq_none.mp hfind b (List.mem_range.mpr hb)
    rw [if_pos hzero]
  | some b =>
    have hbit : v.getLsbD b = true := List.find?_some hfind
    have hne : v ≠ 0 := fun hzero => by simp [hzero] at hbit
    rw [if_neg hne, lzs8, hfind, Option.getD_some]

/-- R131's skip of zero bytes finds the first slot, as a search slot by slot does. -/
theorem firstOccupied_eq_find? {p : Nat → Bool} {bytes : List Byte} :
    ∀ {B : Nat}, ShowsSlots p B bytes →
      firstOccupied B bytes = (List.range' (8 * B) (8 * bytes.length)).find? p := by
  induction bytes with
  | nil => exact fun _ => rfl
  | cons v rest ih =>
    intro B hshows
    have hbyte : (List.range' (8 * B) 8).find? p = if v = 0 then none else some (8 * B + lzs8 v) := by
      have hbits : (List.range 8).find? (p ∘ (8 * B + ·)) = (List.range 8).find? fun b => v.getLsbD b :=
        List.find?_congr fun b hb => (hshows.head b (List.mem_range.mp hb)).symm
      rw [List.range'_eq_map_range, List.find?_map, hbits, find?_bit]
      split <;> rfl
    rw [firstOccupied, ih hshows.tail, List.length_cons, show 8 * (rest.length + 1) = 8 + 8 * rest.length by omega,
      ← List.range'_append_1, List.find?_append, hbyte]
    split <;> rfl

theorem getLsbD_dropBelow (v : Byte) (n : Nat) {b : Nat} (hb : b < 8) :
    (dropBelow v n).getLsbD b = (decide (n ≤ b) && v.getLsbD b) := by
  have hones : (0xFF#8).getLsbD (b - n) = true := by
    rw [show (0xFF#8) = BitVec.allOnes 8 from rfl, BitVec.getLsbD_allOnes]
    exact decide_eq_true (by omega)
  rw [dropBelow, BitVec.getLsbD_and, BitVec.getLsbD_shiftLeft, hones, Bool.and_comm, decide_eq_true hb, Bool.true_and,
    Bool.and_true, ← decide_not, decide_eq_decide.mpr Nat.not_lt]

/-- The slots R131 looks at: the occupied ones at or after `start`. -/
def State.occupiedFrom (s : State) (start j : Nat) : Bool := decide (start ≤ j) && s.slotbit j

/-- R131's masked first byte and the bytes after it show the occupied slots at or after `start`. -/
theorem State.masked_showsSlots (s : State) (hlen : start / 8 < s.bytes.length) :
    ShowsSlots (s.occupiedFrom start) (start / 8)
      (dropBelow (s.bytes[start / 8]) (start % 8) :: s.bytes.drop (start / 8 + 1)) := by
  intro n hn b hb
  rw [State.occupiedFrom, s.slotbit_in_byte _ hb]
  cases n with
  | zero =>
    rw [List.getElem_cons_zero, getLsbD_dropBelow _ _ hb, s.bytes_getElem hlen,
      decide_eq_decide.mpr (show start % 8 ≤ b ↔ start ≤ 8 * (start / 8 + 0) + b by omega)]
    rfl
  | succ n =>
    rw [List.getElem_cons_succ, List.getElem_drop, s.bytes_getElem, decide_eq_true (by omega), Bool.true_and,
      Nat.add_assoc, Nat.add_comm 1 n]

/-- R132: FIND_NEXT's search is the search over single slots. -/
theorem State.nextOccupied_eq_find? (s : State) (start : Nat) :
    s.nextOccupied start
      = (List.range' (8 * (start / 8)) (s.cap - 8 * (start / 8))).find? (s.occupiedFrom start) := by
  rw [State.nextOccupied]
  by_cases hlen : start / 8 < s.bytes.length
  · have hcap : 8 * (s.bytes.length - (start / 8 + 1) + 1) = s.cap - 8 * (start / 8) := by
      rw [State.cap, ← s.bytes_length]
      omega
    rw [List.drop_eq_getElem_cons hlen]
    dsimp only
    rw [firstOccupied_eq_find? (s.masked_showsSlots hlen), List.length_cons, List.length_drop, hcap]
  · have hcap : s.cap - 8 * (start / 8) = 0 := by
      rw [State.cap, ← s.bytes_length]
      omega
    rw [List.drop_eq_nil_of_le (Nat.le_of_not_lt hlen), hcap]
    rfl

/-- R132: `i` is the least occupied slot at or after `start` below the capacity. -/
structure FirstFrom (s : State) (start i : Nat) : Prop where
  le : start ≤ i
  below : i < s.cap
  occupied : s.slotbit i = true
  least : ∀ j, start ≤ j → j < i → s.slotbit j = false

theorem State.nextOccupied_some (h : s.nextOccupied start = some i) : FirstFrom s start i := by
  rw [State.nextOccupied_eq_find?, List.find?_range'_eq_some, List.mem_range'_1, State.occupiedFrom,
    Bool.and_eq_true, decide_eq_true_eq] at h
  obtain ⟨⟨hle, hocc⟩, hrange, hleast⟩ := h
  refine ⟨hle, by omega, hocc, fun j hj hlt => ?_⟩
  have hnot := hleast j (by omega) hlt
  rwa [State.occupiedFrom, decide_eq_true hj, Bool.true_and, Bool.not_eq_true'] at hnot

theorem State.nextOccupied_none (h : s.nextOccupied start = none) (hj : start ≤ j) (hlt : j < s.cap) :
    s.slotbit j = false := by
  rw [State.nextOccupied_eq_find?, List.find?_range'_eq_none] at h
  have hnot := h j (by omega) (by omega)
  rwa [State.occupiedFrom, decide_eq_true hj, Bool.true_and, Bool.not_eq_true'] at hnot

/-! ## FIND_NEXT -/

theorem exec_findNext_badMode (hmode : s.mode = .restoring) : exec .findNext s = .next (s.raise .badMode) :=
  State.onlyIn_neg _ (hmode ▸ nofun)

theorem exec_findNext_hit (hmode : s.mode = .normal) (hnext : s.nextOccupied s.argIndex = some i) :
    exec .findNext s = .next (s.answer i) :=
  (State.onlyIn_pos _ hmode).trans (by rw [hnext])

theorem exec_findNext_miss (hmode : s.mode = .normal) (hnext : s.nextOccupied s.argIndex = none) :
    exec .findNext s = .next ((s.setResult s.count).complete true) :=
  (State.onlyIn_pos _ hmode).trans (by rw [hnext])

/-- Settles O40, by what the search finds: a hit refutes the clause of the miss, and a miss that of the hit. -/
theorem findNextFindsFirst : Obligations.FindNextFindsFirst := by
  refine ⟨decode_encode .findNext, fun s hinv hmode => ?_, fun s hmode =>
    ⟨_, exec_findNext_badMode hmode, s.raise_onlyFails .badMode⟩⟩
  cases hnext : s.nextOccupied s.argIndex with
  | some i =>
    have hi := State.nextOccupied_some hnext
    obtain ⟨hsucc, hinputs, hstructure⟩ := s.answer_frame i
    refine ⟨s.answer i, exec_findNext_hit hmode hnext, hinputs, hstructure, fun _ => ?_, fun hfree => ?_⟩
    · rw [hinv.answer_result hi.below]
      exact ⟨hsucc, hi.le, hi.below, hi.occupied, hi.least⟩
    · exact absurd hi.occupied (ne_true_of_eq_false (hfree i hi.le hi.below))
  | none =>
    refine ⟨_, exec_findNext_miss hmode hnext, .refl s, .of_eq rfl rfl rfl rfl rfl rfl, fun ⟨i, hle, hlt, hocc⟩ => ?_,
      fun _ => ⟨.complete true rfl, zext32_toNat hinv.count_lt⟩⟩
    exact absurd hocc (ne_true_of_eq_false (State.nextOccupied_none hnext hle hlt))

/-! ## The enumeration of the occupied slots -/

/-- R45(b), R132: an occupied slot is the slot of its own rank, an ordinal below the count. -/
theorem Inv.rank_lt_count (hinv : Inv s) (hlt : i < s.cap) (hocc : s.slotbit i = true) : s.rank i < s.count := by
  rw [hinv.countTotal, State.total_eq_rank]
  exact s.rank_lt hocc hlt

/-- The first occupied slot is the slot of rank 0. -/
theorem FirstFrom.eq_slotOfRank (h : FirstFrom s 0 i) (h' : SlotOfRank s 0 j) : i = j := by
  rcases Nat.lt_trichotomy i j with hlt | heq | hgt
  · exact absurd (h'.rank ▸ s.rank_lt h.occupied hlt) (Nat.not_lt_zero _)
  · exact heq
  · exact absurd h'.occupied (ne_true_of_eq_false (h.least j j.zero_le hgt))

/-- FIND_ORD without error has answered the slot of its ordinal. -/
theorem slotOfRank_of_succeedsWith (hinv : Inv s) {a b : Word} (h : succeedsWith .findOrd a b s = some t) :
    SlotOfRank s a.toNat t.result.toNat := by
  obtain ⟨hexec, herr⟩ := succeedsWith_eq_some.mp h
  rcases execFindOrd_next hexec with ⟨_, rfl⟩ | ⟨_, _, rfl⟩ | ⟨_, _, i, hscan, rfl⟩
  · cases herr
  · cases herr
  · obtain ⟨hbelow, hocc, hrank⟩ := State.slotOfOrdinal_bytes hscan
    rw [(hinv.withOperands a b).answer_result hbelow]
    exact ⟨hbelow, hocc, hrank⟩

/-- FIND_ORD of every ordinal below the count ends without error. -/
theorem exists_succeedsWith_findOrd (hinv : Inv s) (hmode : s.mode = .normal) {a : Word} (hord : a.toNat < s.count)
    (b : Word) : ∃ t, succeedsWith .findOrd a b s = some t := by
  obtain ⟨i, _, hexec⟩ := exec_findOrd_answer (s := s.withOperands a b) (hinv.withOperands a b).countTotal hmode hord
  exact ⟨_, succeedsWith_eq_some.mpr ⟨hexec, rfl⟩⟩

/-- FIND_NEXT from 0 finds the slot that FIND_ORD of 0 has found. -/
theorem succeedsWith_findNext_zero (hinv : Inv s) (hmode : s.mode = .normal) (b : Word)
    (hslot : SlotOfRank s 0 i) : ∃ u, succeedsWith .findNext 0 b s = some u ∧ u.result.toNat = i ∧
      u.status.notFound = false := by
  have hinv' := hinv.withOperands 0 b
  cases hnext : (s.withOperands 0 b).nextOccupied 0 with
  | none =>
    have hfree : s.slotbit i = false := State.nextOccupied_none hnext i.zero_le hslot.below
    exact absurd hslot.occupied (ne_true_of_eq_false hfree)
  | some j =>
    obtain ⟨hle, hbelow, hocc, hleast⟩ := State.nextOccupied_some hnext
    have hfirst : FirstFrom s 0 j := ⟨hle, hbelow, hocc, hleast⟩
    exact ⟨_, succeedsWith_eq_some.mpr ⟨exec_findNext_hit (s := s.withOperands 0 b) hmode hnext, rfl⟩,
      (hinv'.answer_result hbelow).trans (hfirst.eq_slotOfRank hslot), rfl⟩

/-- Settles O41: ordinals and slots of that rank are in the same order, and each occupied slot has its rank. -/
theorem ordinalsEnumerateOccupied : Obligations.OrdinalsEnumerateOccupied := by
  intro s hinv hmode
  refine ⟨fun k k' t t' hlt ht ht' => ?_, fun i hi => ⟨fun hocc => ?_, ?_⟩, fun hpos => ?_⟩
  · exact (slotOfRank_of_succeedsWith hinv ht).lt (slotOfRank_of_succeedsWith hinv ht') hlt
  · have hord := hinv.rank_lt_count hi hocc
    have hword : (zext32 (s.rank i)).toNat = s.rank i := zext32_toNat (hord.trans hinv.count_lt)
    obtain ⟨t, ht⟩ := exists_succeedsWith_findOrd hinv hmode (hword.trans_lt hord) s.arg1
    exact ⟨_, t, hword.trans_lt hord, ht,
      SlotOfRank.unique ⟨hi, hocc, hword.symm⟩ (slotOfRank_of_succeedsWith hinv ht)⟩
  · rintro ⟨k, t, _, ht, rfl⟩
    exact (slotOfRank_of_succeedsWith hinv ht).occupied
  · obtain ⟨t, ht⟩ := exists_succeedsWith_findOrd hinv hmode (a := 0) hpos s.arg1
    obtain ⟨u, hu, hresult, hfound⟩ := succeedsWith_findNext_zero hinv hmode s.arg1 (slotOfRank_of_succeedsWith hinv ht)
    exact ⟨t, u, ht, hu, BitVec.eq_of_toNat_eq hresult, hfound⟩

end Sys2Proof.Machine

/-! SUPPORT. READ_BYTE and the three RESTORE commands (44_persist.md R150, R152 to R154): the next state of each branch,
and the round trip of a saved structure (R155). -/

namespace Sys2Proof.Machine

variable {s t u : State}

/-! ## READ_BYTE -/

theorem exec_readByte_indexRange (habove : s.len ≤ s.argIndex) : exec .readByte s = .next (s.raise .indexRange) :=
  if_pos habove

theorem exec_readByte_answer (hbelow : s.argIndex < s.len) :
    exec .readByte s = .next (s.answer (s.memByte s.argIndex).toNat) :=
  if_neg (Nat.not_le.mpr hbelow)

/-- Settles O43, on each side of `L`; RESULT is the byte widened to a word. -/
theorem readByteGivesTheByte : Obligations.ReadByteGivesTheByte :=
  ⟨decode_encode .readByte, fun s =>
    ⟨fun hbelow => ⟨_, exec_readByte_answer hbelow, BitVec.ofNat_toNat 32 _, s.answer_frame _⟩,
      fun habove => ⟨_, exec_readByte_indexRange habove, s.raise_onlyFails .indexRange⟩⟩⟩

/-! ## RESTORE_BEGIN -/

/-- R152: what RESTORE_BEGIN leaves. -/
def State.begun (s : State) : State := (s.discard .restoring).complete false

/-- R152: RESTORE_BEGIN has no check. -/
theorem exec_restoreBegin (s : State) : exec .restoreBegin s = .next s.begun := rfl

/-- Settles O44: the empty structure completed with success in RESTORING mode. -/
theorem restoreBeginDiscards : Obligations.RestoreBeginDiscards :=
  ⟨decode_encode .restoreBegin, fun s =>
    ⟨s.begun, exec_restoreBegin s, ⟨rfl, rfl, rfl, rfl⟩, rfl, .complete false rfl, .refl s, rfl⟩⟩

/-! ## RESTORE_BYTE -/

/-- R153: what RESTORE_BYTE below MAX_BYTES leaves. -/
def State.appended (s : State) : State :=
  State.complete { s.bufAppend s.argByte with count := s.count + (popcnt s.argByte).toNat } false

theorem exec_restoreByte_badMode (hmode : s.mode = .normal) : exec .restoreByte s = .next (s.raise .badMode) :=
  State.onlyIn_neg _ (hmode ▸ nofun)

theorem exec_restoreByte_full (hmode : s.mode = .restoring) (htop : s.len = s.config.maxBytes) :
    exec .restoreByte s = .next (s.raise .full) :=
  (State.onlyIn_pos _ hmode).trans (if_pos htop)

theorem exec_restoreByte_append (hmode : s.mode = .restoring) (hroom : s.len ≠ s.config.maxBytes) :
    exec .restoreByte s = .next s.appended :=
  (State.onlyIn_pos _ hmode).trans (if_neg hroom)

theorem State.appended_bytes (hw : Memory.wf s.buf = true) : s.appended.bytes = s.bytes ++ [s.argByte] :=
  State.bytes_bufAppend hw s.argByte

theorem State.appended_count (s : State) : s.appended.count = s.count + popcount8 s.argByte :=
  congrArg (s.count + ·) (popcnt_toNat s.argByte)

/-- R153: the count stays the popcount sum of the buffer. -/
theorem State.appended_count_total (hw : Memory.wf s.buf = true) (hcount : s.count = s.total) :
    s.appended.count = s.appended.total := by
  have htotal : s.appended.total = s.total + popcount8 s.argByte := State.total_bufAppend hw s.argByte
  rw [State.appended_count, htotal, hcount]

/-- Settles O45, branch by branch. -/
theorem restoreByteAppends : Obligations.RestoreByteAppends := by
  refine ⟨decode_encode .restoreByte, fun s => ⟨fun hmode => ?_, fun hmode htop => ?_, fun hw hmode hroom => ?_⟩⟩
  · exact ⟨_, exec_restoreByte_badMode hmode, s.raise_onlyFails .badMode⟩
  · exact ⟨_, exec_restoreByte_full hmode htop, s.raise_onlyFails .full⟩
  · exact ⟨s.appended, exec_restoreByte_append hmode hroom, rfl, State.appended_bytes hw,
      fun _ ha => State.memByte_of_write_other rfl ha, s.appended_count, State.appended_count_total hw, rfl, hmode, rfl,
      rfl, .complete false rfl, .refl s⟩

/-! ## RESTORE_COMMIT -/

theorem exec_restoreCommit_badMode (hmode : s.mode = .normal) : exec .restoreCommit s = .next (s.raise .badMode) :=
  State.onlyIn_neg _ (hmode ▸ nofun)

theorem exec_restoreCommit_reject (hmode : s.mode = .restoring) (hreject : s.rejects = true) :
    exec .restoreCommit s = .next ((s.discard .normal).raise .restoreReject) :=
  (State.onlyIn_pos _ hmode).trans (if_pos hreject)

theorem exec_restoreCommit_adopt (hmode : s.mode = .restoring) (hfits : s.rejects = false) :
    exec .restoreCommit s = .next (s.adopt.complete false) :=
  (State.onlyIn_pos _ hmode).trans (if_neg (ne_true_of_eq_false hfits))

/-- R154: a payload is accepted when its count is the popcount sum and its cursor lies below a non-zero capacity. -/
theorem State.rejects_of_fits (hcount : s.argSavedCount = s.count) (hcursor : 0 < s.cap → s.argIndex < s.cap) :
    s.rejects = false := by
  refine Bool.eq_false_iff.mpr fun hreject => ?_
  rcases State.rejects_iff.mp hreject with hne | ⟨hpos, habove⟩
  · exact hne hcount
  · exact Nat.not_lt.mpr habove (hcursor hpos)

@[simp] theorem State.adopt_status (s : State) : s.adopt.status = s.status := by unfold State.adopt; split <;> rfl

theorem State.adopt_draws (h : 0 < s.cap) : s.adopt.draws = s.draws := by rw [State.adopt_pos h]

/-- R184: what an error completion writes to STATUS, over a state with the OVR of the state before the command. -/
theorem Failed.raise (code : ErrCode) (hovr : u.status.ovr = s.status.ovr) : Failed s (u.raise code) code :=
  ⟨rfl, rfl, rfl, rfl, rfl, decide_eq_true_iff, hovr⟩

/-- R25, R38: an accepted payload's completion shows NORMAL mode. -/
theorem State.adopt_complete_restoring (s : State) : (s.adopt.complete false).status.restoring = false :=
  decide_eq_false (s.adopt_mode ▸ nofun)

/-- Settles O46, branch by branch. -/
theorem restoreCommitChecksPayload : Obligations.RestoreCommitChecksPayload := by
  refine ⟨decode_encode .restoreCommit, fun s =>
    ⟨fun hmode => ?_, fun hmode hbad => ?_, fun hmode hcount hcursor => ?_⟩⟩
  · exact ⟨_, exec_restoreCommit_badMode hmode, s.raise_onlyFails .badMode⟩
  · exact ⟨_, exec_restoreCommit_reject hmode (State.rejects_iff.mpr hbad),
      .raise .restoreReject rfl, ⟨rfl, rfl, rfl, rfl⟩, .refl s, rfl, rfl⟩
  · have hovr : s.adopt.status.ovr = s.status.ovr := congrArg Status.ovr s.adopt_status
    exact ⟨_, exec_restoreCommit_adopt hmode (State.rejects_of_fits hcount hcursor), .complete false hovr,
      s.adopt_completes.keepsInputs, ⟨s.adopt_len, State.memByte_of_buf s.adopt_buf⟩, s.adopt_count, s.adopt_mode,
      s.adopt_complete_restoring, s.adopt_result, fun hpos => ⟨State.adopt_cursor hpos, State.adopt_draws hpos⟩⟩

/-! ## The buffer is its bytes -/

theorem State.len_of_bytes (h : t.bytes = s.bytes) : t.len = s.len := by rw [← t.bytes_length, h, s.bytes_length]

/-- The converse of `State.bytes_congr`: the byte sequence determines every byte below the length. -/
theorem State.memByte_of_bytes (h : t.bytes = s.bytes) {a : Nat} (ha : a < s.len) : t.memByte a = s.memByte a := by
  rw [State.bytes, State.bytes, State.len_of_bytes h] at h
  exact List.map_inj_left.mp h a (List.mem_range.mpr ha)

/-- Nothing is held at or above the length (notes/assumptions/9.md). -/
theorem Inv.memByte_above (hinv : Inv s) {a : Nat} (ha : s.len ≤ a) : s.memByte a = unlistedByte :=
  memRead_absent fun c hc => ((hinv.inside c hc).trans_le ha).ne

/-- Under the invariants the byte sequence determines the storage as data. -/
theorem Inv.buf_of_bytes (hs : Inv s) (ht : Inv t) (h : t.bytes = s.bytes) : t.buf = s.buf := by
  refine canonicalStorageIsDeterminedByItsBytes t.buf s.buf ht.canonical hs.canonical fun a => ?_
  rcases Nat.lt_or_ge a s.len with hbelow | habove
  · exact State.memByte_of_bytes h hbelow
  · exact (ht.memByte_above ((State.len_of_bytes h).trans_le habove)).trans (hs.memByte_above habove).symm

/-- R45(b): the byte sequence determines the count. -/
theorem Inv.count_of_bytes (hs : Inv s) (ht : Inv t) (h : t.bytes = s.bytes) : t.count = s.count := by
  rw [ht.countTotal, hs.countTotal, State.total, State.total, h]

/-! ## Restoring a payload -/

/-- The engine with parameters `c` is in RESTORING mode and holds `bytes`, the part of a payload restored so far. -/
structure HoldsPayload (c : Config) (bytes : List Byte) (s : State) : Prop where
  inv : Inv s
  config : s.config = c
  mode : s.mode = .restoring
  bytes : s.bytes = bytes

variable {c : Config} {bytes : List Byte}

theorem HoldsPayload.withOperands (h : HoldsPayload c bytes s) (a b : Word) :
    HoldsPayload c bytes (s.withOperands a b) :=
  ⟨h.inv.withOperands a b, h.config, h.mode, h.bytes⟩

/-- R152: from any state RESTORE_BEGIN leaves the empty payload. -/
theorem HoldsPayload.begun (hwf : s.config.wf = true) : HoldsPayload s.config [] s.begun :=
  ⟨.of_empty hwf rfl rfl rfl (exec_completes (exec_restoreBegin s)).restoringBit, rfl, rfl, rfl⟩

/-- R153: RESTORE_BYTE below MAX_BYTES leaves the payload longer by its operand byte. -/
theorem HoldsPayload.appended (h : HoldsPayload c bytes s) (hroom : s.len ≠ s.config.maxBytes) :
    HoldsPayload c (bytes ++ [s.argByte]) s.appended where
  inv := exec_inv h.inv (exec_restoreByte_append h.mode hroom)
  config := h.config
  mode := h.mode
  bytes := by rw [State.appended_bytes h.inv.canonical, h.bytes]

/-- R71: a byte written to ARG0 with zeros above it is the operand byte. -/
theorem State.withOperands_argByte_setWidth (s : State) (v : Byte) (b : Word) :
    (s.withOperands (v.setWidth 32) b).argByte = v := by
  change (v.setWidth 32).extractLsb' 0 8 = v
  rw [BitVec.extractLsb'_setWidth_of_le (by decide), BitVec.extractLsb'_eq_self]

/-- One line of R155's loop. -/
theorem HoldsPayload.restoreByte (h : HoldsPayload c bytes s) (hroom : bytes.length < c.maxBytes) (v : Byte) :
    ∃ t, succeedsWith .restoreByte (v.setWidth 32) s.arg1 s = some t ∧ HoldsPayload c (bytes ++ [v]) t := by
  have hstore := h.withOperands (v.setWidth 32) s.arg1
  have hbelow : s.len ≠ s.config.maxBytes := by
    rw [← s.bytes_length, h.bytes, h.config]
    exact hroom.ne
  have happend := hstore.appended hbelow
  rw [State.withOperands_argByte_setWidth] at happend
  exact ⟨_, succeedsWith_eq_some.mpr ⟨exec_restoreByte_append hstore.mode hbelow, rfl⟩, happend⟩

theorem restoreBytesRun_cons {v : Byte} {rest : List Byte}
    (h : succeedsWith .restoreByte (v.setWidth 32) s.arg1 s = some t) :
    restoreBytesRun (v :: rest) s = restoreBytesRun rest t := by
  rw [restoreBytesRun, h]
  rfl

/-- R155's loop restores every byte of a payload that fits below MAX_BYTES. -/
theorem HoldsPayload.restoreBytes (rest : List Byte) (h : HoldsPayload c bytes s)
    (hroom : bytes.length + rest.length ≤ c.maxBytes) :
    ∃ t, restoreBytesRun rest s = some t ∧ HoldsPayload c (bytes ++ rest) t := by
  induction rest generalizing bytes s with
  | nil => exact ⟨s, rfl, bytes.append_nil.symm ▸ h⟩
  | cons v rest ih =>
    rw [List.length_cons] at hroom
    obtain ⟨t, hbyte, ht⟩ := h.restoreByte (by omega) v
    obtain ⟨u, hrest, hu⟩ := ih ht (by rw [List.length_append, List.length_singleton]; omega)
    refine ⟨u, (restoreBytesRun_cons hbyte).trans hrest, ?_⟩
    rwa [List.append_assoc, List.singleton_append] at hu

/-- R45(c), R15: a saved cursor lies below a non-zero capacity, and ARG0 holds it exactly. -/
theorem Inv.savedCursor (hinv : Inv s) (hmode : s.mode = .normal) (hpos : 0 < s.cap) :
    s.cursor < s.cap ∧ (zext32 s.cursor).toNat = s.cursor := by
  have hbelow := hinv.cursorBelow hmode (Nat.pos_of_mul_pos_left hpos)
  exact ⟨hbelow, zext32_toNat (hbelow.trans hinv.cap_lt)⟩

/-- R154: on the bytes of a saved structure its cursor and count are accepted. -/
theorem HoldsPayload.accepts (h : HoldsPayload c s.bytes u) (hinv : Inv s) (hmode : s.mode = .normal) :
    (u.withOperands (zext32 s.cursor) (zext32 s.count)).rejects = false := by
  have hcap : u.cap = s.cap := State.cap_of_len (State.len_of_bytes h.bytes)
  refine State.rejects_of_fits ?_ fun hpos => ?_
  · exact (zext32_toNat hinv.count_lt).trans (hinv.count_of_bytes h.inv h.bytes).symm
  · obtain ⟨hbelow, hexact⟩ := hinv.savedCursor hmode (hcap ▸ hpos)
    exact (hexact.trans_lt hbelow).trans_eq hcap.symm

/-- R155's last line: on the bytes of a saved structure the commit gives the structure back. -/
theorem HoldsPayload.restoreCommit (h : HoldsPayload c s.bytes u) (hinv : Inv s) (hmode : s.mode = .normal) :
    ∃ t, succeedsWith .restoreCommit (zext32 s.cursor) (zext32 s.count) u = some t ∧ t.len = s.len ∧ t.buf = s.buf ∧
      t.count = s.count ∧ t.mode = .normal ∧ (0 < s.cap → t.cursor = s.cursor) := by
  have hstore := h.withOperands (zext32 s.cursor) (zext32 s.count)
  have hlen := State.len_of_bytes hstore.bytes
  have hexec := exec_restoreCommit_adopt hstore.mode (h.accepts hinv hmode)
  refine ⟨_, succeedsWith_eq_some.mpr ⟨hexec, rfl⟩, (State.adopt_len _).trans hlen,
    (State.adopt_buf _).trans (hinv.buf_of_bytes hstore.inv hstore.bytes),
    (State.adopt_count _).trans (hinv.count_of_bytes hstore.inv hstore.bytes), State.adopt_mode _, fun hpos => ?_⟩
  obtain ⟨_, hexact⟩ := hinv.savedCursor hmode hpos
  exact (State.adopt_cursor (hpos.trans_eq (State.cap_of_len hlen).symm)).trans hexact

theorem restoreRun_eq {a b : Word} (hbegin : succeedsWith .restoreBegin s.arg0 s.arg1 s = some t)
    (hbytes : restoreBytesRun bytes t = some u) : restoreRun bytes a b s = succeedsWith .restoreCommit a b u := by
  rw [restoreRun, hbegin, Option.bind_eq_bind, Option.bind_some, hbytes]
  rfl

/-- Settles O47: RESTORE_BEGIN leaves the empty payload, the loop makes it the saved bytes, and the commit accepts. -/
theorem restoreGivesBackSavedStructure : Obligations.RestoreGivesBackSavedStructure := by
  intro s r hinv hmode hconfig
  have hbegin : succeedsWith .restoreBegin r.arg0 r.arg1 r = some r.begun :=
    succeedsWith_eq_some.mpr ⟨exec_restoreBegin r, rfl⟩
  have hempty : HoldsPayload r.config [] r.begun := .begun (hconfig ▸ hinv.config)
  have hroom : ([] : List Byte).length + s.bytes.length ≤ r.config.maxBytes := by
    rw [List.length_nil, Nat.zero_add, s.bytes_length, hconfig]
    exact hinv.bound
  obtain ⟨u, hbytes, hu⟩ := hempty.restoreBytes s.bytes hroom
  obtain ⟨t, hcommit, hlen, hbuf, hsame⟩ := hu.restoreCommit hinv hmode
  exact ⟨t, (restoreRun_eq hbegin hbytes).trans hcommit, ⟨hlen, State.memByte_of_buf hbuf⟩, hbuf, hsame⟩

end Sys2Proof.Machine

/-! SUPPORT. The reserved commands (45_reserved.md R170, R171): SET and ADD_RANGE have one outcome in every state, the error
completion UNIMPLEMENTED; neither the mode nor an operand is looked at. -/

namespace Sys2Proof.Machine

theorem exec_set (s : State) : exec .set s = .next (s.raise .unimplemented) := rfl

theorem exec_addRange (s : State) : exec .addRange s = .next (s.raise .unimplemented) := rfl

/-- Settles O42: each command's one outcome is an error completion, and that writes STATUS only. -/
theorem reservedCommandsReportUnimplemented : Obligations.ReservedCommandsReportUnimplemented :=
  ⟨decode_encode .set, decode_encode .addRange, fun s =>
    ⟨⟨s.raise .unimplemented, exec_set s, s.raise_onlyFails .unimplemented⟩,
      s.raise .unimplemented, exec_addRange s, s.raise_onlyFails .unimplemented⟩⟩

end Sys2Proof.Machine

/-! SUPPORT. What a completion reports (60_exceptions.md R183 to R187): the fields every completion writes, what an error
leaves alone, and which code a command reports. -/

namespace Sys2Proof.Machine

variable {s t : State} {i : Instr}

/-! ## NOTFOUND -/

/-- R37, R183: NOTFOUND is FIND_NEXT's alone. The other queries end in an error or a plain answer; every other effect
completes with NOTFOUND = 0. -/
theorem exec_notFound (h : exec i s = .next t) (hnf : t.status.notFound = true) : i = .findNext := by
  cases i with
  | findNext => rfl
  | findOrd => rcases execFindOrd_next h with ⟨_, rfl⟩ | ⟨_, _, rfl⟩ | ⟨_, _, _, _, rfl⟩ <;> cases hnf
  | readByte => rcases execReadByte_next h with ⟨_, rfl⟩ | ⟨_, rfl⟩ <;> cases hnf
  | count | capacity | popcnt8 => cases h; cases hnf
  | reserve | remove | set | addRange | restoreBegin | restoreByte | restoreCommit =>
    cases exec_effect h with
    | answers query => cases query
    | _ => cases hnf

/-- Settles O23: a completion's fields, and the one command whose completion can have NOTFOUND. -/
theorem everyCompletionWritesStatus : Obligations.EveryCompletionWritesStatus := by
  intro i s t h
  have hc := exec_completes h
  obtain ⟨hbusy, hdone⟩ := hc.busy_done
  refine ⟨hbusy, hdone, hc.restoringBit, hc.ovr, hc.statusInv.errCode, fun hnf => ⟨exec_notFound h hnf, ?_⟩⟩
  obtain ⟨_, herr⟩ := hc.statusInv.notFoundDone hnf
  exact herr

/-! ## What an error leaves alone -/

/-- Settles O24: two effects end in an error, and only RESTORE_COMMIT's rejection discards the structure first. -/
theorem errorsLeaveTheStructure : Obligations.ErrorsLeaveTheStructure := by
  intro i s t h herr
  cases exec_effect h with
  | answers | grows | allocates | frees | leavesFree | begins | appends | adopts => cases herr
  | @fails _ code _ notReject =>
    split
    · rename_i hreject
      exact absurd hreject notReject
    · exact s.raise_onlyFails code
  | rejects =>
    split
    · exact ⟨rfl, .raise .restoreReject rfl, ⟨rfl, rfl, rfl, rfl⟩, .refl s, rfl⟩
    · rename_i hne
      exact absurd rfl hne

/-! ## The table of codes

R186's order, one equation per outcome: BAD_MODE outside the modes of R187, else the command's own check. -/

theorem expectedCode_badMode (i : Instr) (h : allowedIn i s.mode = false) : expectedCode i s = .badMode := by
  have hreserved : ¬(i = .set ∨ i = .addRange) := by rintro (rfl | rfl) <;> cases h
  exact (if_neg hreserved).trans (if_pos h)

theorem expectedCode_reserve (hmode : s.mode = .normal) :
    expectedCode .reserve s = if s.count = s.cap ∧ s.len = s.config.maxBytes then .full else .none := by
  simp [expectedCode, allowedIn, hmode]

theorem expectedCode_remove (hmode : s.mode = .normal) :
    expectedCode .remove s = if s.cap ≤ s.argIndex then .indexRange else .none := by
  simp [expectedCode, allowedIn, hmode]

theorem expectedCode_findOrd (hmode : s.mode = .normal) :
    expectedCode .findOrd s = if s.count ≤ s.argIndex then .ordinalRange else .none := by
  simp [expectedCode, allowedIn, hmode]

theorem expectedCode_findNext (hmode : s.mode = .normal) : expectedCode .findNext s = .none := by
  simp [expectedCode, allowedIn, hmode]

theorem expectedCode_readByte (s : State) :
    expectedCode .readByte s = if s.len ≤ s.argIndex then .indexRange else .none := rfl

theorem expectedCode_restoreByte (hmode : s.mode = .restoring) :
    expectedCode .restoreByte s = if s.len = s.config.maxBytes then .full else .none := by
  simp [expectedCode, allowedIn, hmode]

theorem expectedCode_restoreCommit (hmode : s.mode = .restoring) :
    expectedCode .restoreCommit s = if s.rejects then .restoreReject else .none := by
  simp [expectedCode, allowedIn, hmode, State.rejects_iff]

/-- R185 to R187: a command that completes reports the code of the table, in every state. -/
theorem exec_errCode (h : exec i s = .next t) : t.status.errCode = expectedCode i s := by
  cases i with
  | reserve =>
    rcases execReserve_next h with ⟨hm, rfl⟩ | ⟨hm, hfull, htop, rfl⟩ | ⟨hm, _, hroom, rfl⟩ | ⟨hm, hfree, _, _, rfl⟩
    · exact (expectedCode_badMode .reserve (decide_eq_false hm)).symm
    · rw [expectedCode_reserve hm, if_pos ⟨hfull, htop⟩]; rfl
    · rw [expectedCode_reserve hm, if_neg fun ⟨_, htop⟩ => hroom htop]; rfl
    · rw [expectedCode_reserve hm, if_neg fun ⟨hfull, _⟩ => hfree hfull]; rfl
  | remove =>
    rcases execRemove_next h with ⟨hm, rfl⟩ | ⟨hm, habove, rfl⟩ | ⟨hm, hbelow, _, rfl⟩ | ⟨hm, hbelow, _, rfl⟩
    · exact (expectedCode_badMode .remove (decide_eq_false hm)).symm
    · rw [expectedCode_remove hm, if_pos habove]; rfl
    · rw [expectedCode_remove hm, if_neg (Nat.not_le.mpr hbelow)]; rfl
    · rw [expectedCode_remove hm, if_neg (Nat.not_le.mpr hbelow)]; rfl
  | findOrd =>
    rcases execFindOrd_next h with ⟨hm, rfl⟩ | ⟨hm, habove, rfl⟩ | ⟨hm, hbelow, _, _, rfl⟩
    · exact (expectedCode_badMode .findOrd (decide_eq_false hm)).symm
    · rw [expectedCode_findOrd hm, if_pos habove]; rfl
    · rw [expectedCode_findOrd hm, if_neg (Nat.not_le.mpr hbelow)]; rfl
  | findNext =>
    rcases execFindNext_next h with ⟨hm, rfl⟩ | ⟨hm, _, _, rfl⟩ | ⟨hm, _, rfl⟩
    · exact (expectedCode_badMode .findNext (decide_eq_false hm)).symm
    · exact (expectedCode_findNext hm).symm
    · exact (expectedCode_findNext hm).symm
  | count | capacity | popcnt8 | set | addRange | restoreBegin => cases h; rfl
  | readByte =>
    rcases execReadByte_next h with ⟨habove, rfl⟩ | ⟨hbelow, rfl⟩
    · rw [expectedCode_readByte, if_pos habove]; rfl
    · rw [expectedCode_readByte, if_neg (Nat.not_le.mpr hbelow)]; rfl
  | restoreByte =>
    rcases execRestoreByte_next h with ⟨hm, rfl⟩ | ⟨hm, htop, rfl⟩ | ⟨hm, hroom, rfl⟩
    · exact (expectedCode_badMode .restoreByte (decide_eq_false hm)).symm
    · rw [expectedCode_restoreByte hm, if_pos htop]; rfl
    · rw [expectedCode_restoreByte hm, if_neg hroom]; rfl
  | restoreCommit =>
    rcases execRestoreCommit_next h with ⟨hm, rfl⟩ | ⟨hm, hreject, rfl⟩ | ⟨hm, hfits, rfl⟩
    · exact (expectedCode_badMode .restoreCommit (decide_eq_false hm)).symm
    · rw [expectedCode_restoreCommit hm, if_pos hreject]; rfl
    · rw [expectedCode_restoreCommit hm, if_neg (ne_true_of_eq_false hfits)]; rfl

/-- Settles O25: under the invariants the engine's step answers, with ILLEGAL_CMD for an illegal word and else the code of
the table; STATUS shows the number of whatever code it holds. -/
theorem errorCodeByCauseAndPriority : Obligations.ErrorCodeByCauseAndPriority := by
  refine ⟨⟨rfl, rfl, rfl, rfl, rfl, rfl, rfl, rfl⟩, fun s hinv hbusy => ?_⟩
  obtain ⟨t, ht⟩ := engineStep_answers hinv.countTotal
  refine ⟨t, by rw [step_engineNext, engineTurn_busy hbusy, ht], statusWord_code .., ?_⟩
  rcases engineStep_next ht with ⟨i, hdecode, hexec⟩ | ⟨why, hdecode, rfl⟩
  · rw [hdecode]
    exact exec_errCode hexec
  · rw [hdecode]
    rfl

end Sys2Proof.Machine

/-! SUPPORT. The lifecycle of a command (60_exceptions.md R181, R182, R196): acceptance, the engine's turn with a command
pending, and the engine's turn without one. -/

namespace Sys2Proof.Machine

variable {s : State}

/-- Settles O4, in the two orders in which the engine's turn comes next. -/
theorem stepRunsDecodedCommand : Obligations.StepRunsDecodedCommand := by
  refine fun s i hbusy hdecode => ⟨?_, fun hturns => ?_⟩
  · rw [step_engineNext, engineTurn_busy hbusy, engineStep_command hdecode]
  · rw [step_pending hbusy hturns, engineStep_command hdecode]

/-- What `withFetchWord` stands for (notes/assumptions/2.md): the word accepted, and the engine's turn next. -/
theorem State.withFetchWord_eq (s : State) (w : Word) : s.withFetchWord 32 w.toNat = (s.accept w).engineNext := by
  have hword : BitVec.ofNat 32 (w.toNat % 2 ^ 32) = w := by
    rw [Nat.mod_eq_of_lt w.isLt, BitVec.ofNat_toNat, BitVec.setWidth_eq]
  rw [State.withFetchWord, hword]
  rfl

/-- Settles O5: an accepted word is a pending command. -/
theorem placedWordRunsNext : Obligations.PlacedWordRunsNext := by
  intro s i w hdecode
  rw [s.withFetchWord_eq, step_engineNext, engineTurn_busy s.status.accepted_busy, engineStep_command hdecode]

/-- Settles O7: a CMD write is accepted with BUSY = 0, and with BUSY = 1 it is dropped and sets OVR only. -/
theorem commandAcceptance : Obligations.CommandAcceptance := by
  refine fun s w => ⟨fun hidle => ?_, fun hbusy => ⟨s.overrun, ?_, rfl, rfl, rfl, rfl, rfl⟩⟩
  · rw [step_writeOf, State.writeReg_cmd_idle hidle]
    rfl
  · rw [step_writeOf, State.writeReg_dropped hbusy (.inl rfl)]

/-- The engine's turn with no command pending. -/
theorem engineTurn_idle (h : s.status.busy = false) : engineTurn s = .next s := if_neg (ne_true_of_eq_false h)

/-- A host with no operation left does nothing. -/
theorem State.hostTurn_nil (h : s.host = []) : s.hostTurn = .next s := by rw [State.hostTurn, h]

/-- Settles O20: an idle engine's turn and the turn of a host without operations are both stutters. -/
theorem idleHoldsAllState : Obligations.IdleHoldsAllState := by
  refine fun s hidle => ⟨?_, fun hturns hhost => ?_⟩
  · rw [step_engineNext, engineTurn_idle hidle]
  · have hmoves : HostMoves s := ⟨hidle, hturns⟩
    rw [hmoves.step_eq, State.hostTurn_nil hhost]

end Sys2Proof.Machine

/-! SUPPORT. A pending command and the host, and reset (70_reset_and_hazards.md R200 to R208): what reads exactly and what
reads as a draw, what becomes of a write and a poll, and what reset leaves. -/

namespace Sys2Proof.Machine

variable {s t : State}

/-! ## Reads of a pending command -/

/-- R205: bits 4:1 of the STATUS word read with BUSY = 1 are the draw's. -/
theorem Status.busyWord_flags (st : Status) (d : Word) : (st.busyWord d).extractLsb' 1 4 = d.extractLsb' 1 4 := by
  refine BitVec.eq_of_getLsbD_eq fun i hi => ?_
  rw [BitVec.getLsbD_extractLsb', BitVec.getLsbD_extractLsb']
  congr 1
  match i, hi with
  | 0, _ => exact statusWord_done ..
  | 1, _ => exact statusWord_err ..
  | 2, _ => exact statusWord_notFound ..
  | 3, _ => exact statusWord_restoring ..

theorem State.readReg_status_busy (hbusy : s.status.busy = true) :
    s.readReg .status = (s.status.busyWord (Config.freeWord s.draws), { s with draws := s.draws + 1 }) := if_pos hbusy

/-- R205: RESULT, COUNT, CAPACITY and CURSOR are hidden by a pending command. -/
theorem State.readReg_drawn (hbusy : s.status.busy = true) {r : Reg}
    (hr : r = .result ∨ r = .count ∨ r = .capacity ∨ r = .cursor) : s.readReg r = s.draw := by
  have hhidden : s.cursorHidden = true := State.cursorHidden_iff.mpr (.inr (.inr hbusy))
  rcases hr with rfl | rfl | rfl | rfl
  exacts [if_pos hbusy, if_pos hbusy, if_pos hbusy, if_pos hhidden]

/-- Settles O14: STATUS field by field, the hidden registers by their one draw, and every other read is the same with
BUSY = 0. -/
theorem busyReadsAreDraws : Obligations.BusyReadsAreDraws := by
  refine fun s hbusy => ⟨⟨s.status.busyWord (Config.freeWord s.draws), ?_, ?_⟩, fun r hr => ?_, step_readOf s .arg0,
    step_readOf s .arg1, step_readOf s .cmd, step_readOf s .param, fun off hlow hhigh halign => ?_⟩
  · rw [step_readOf, State.readReg_status_busy hbusy]
    rfl
  · have hbit : (s.status.busyWord (Config.freeWord s.draws)).getLsbD 0 = true := (statusWord_busy ..).trans hbusy
    obtain ⟨hlow, hhigh⟩ : (s.status.busyWord (Config.freeWord s.draws)).extractLsb' 6 2 = 0#2 ∧
        (s.status.busyWord (Config.freeWord s.draws)).extractLsb' 12 20 = 0#20 := statusWord_reserved ..
    exact ⟨hbit, statusWord_ovr .., hlow, hhigh, s.status.busyWord_flags _, statusWord_code ..⟩
  · rw [step_readOf, State.readReg_drawn hbusy hr]
    rfl
  · rw [step_read s (by omega) halign, s.recordRead_reserved hlow]

/-! ## The host's turn with a command pending -/

/-- R208: with a command pending a host's turn that is a step changes OVR, the draw counter and the host's own fields, and
no more. -/
theorem State.hostTurn_pending (hbusy : s.status.busy = true) (h : s.hostTurn = .next t) :
    ∃ d rs ops ovr, t = { s.withObserved d rs with host := ops, status := { s.status with ovr := ovr } } := by
  rcases State.hostTurn_next h with
    ⟨_, rfl⟩ | ⟨_, _, v, rest, off, _, _, rfl⟩ | ⟨_, _, rest, off, _, _, rfl⟩ | ⟨rest, _, rfl⟩
  · exact ⟨_, _, _, _, rfl⟩
  · rcases State.writeOffset_cases { s with host := rest } off v with hw | ⟨_, hw⟩ | ⟨hidle, _⟩ | hw
    · exact ⟨s.draws, s.reads, rest, s.status.ovr, hw⟩
    · exact ⟨s.draws, s.reads, rest, true, hw⟩
    · exact absurd hbusy (ne_true_of_eq_false hidle)
    · exact ⟨s.draws, s.reads, rest, false, hw⟩
  · obtain ⟨d, hread⟩ := State.recordRead_eq { s with host := rest } off
    exact ⟨d, _, rest, s.status.ovr, hread⟩
  · obtain ⟨d, rs, ops, hpoll⟩ := s.pollOnce_eq rest
    exact ⟨d, rs, ops, s.status.ovr, hpoll⟩

/-- Settles O18: what a host's turn changes is no part of the pending command, so BUSY falls on another agent's turn. -/
theorem hostCannotCancel : Obligations.HostCannotCancel := by
  refine ⟨fun s t op hbusy h => ?_, fun s t hbusy h hidle => ?_⟩
  · obtain ⟨d, rs, ops, ovr, rfl⟩ := State.hostTurn_pending (s := { s with host := op :: s.host }) hbusy h
    exact ⟨hbusy, rfl, rfl, rfl, ⟨rfl, fun _ => rfl⟩, rfl, rfl, rfl, rfl⟩
  · obtain ⟨ts, ⟨_, hhost⟩ | ⟨hturn, _⟩ | ⟨hturn, _⟩ | ⟨hturn, _⟩⟩ := step_turn h
    · obtain ⟨_, _, _, _, rfl⟩ := State.hostTurn_pending (s := { s with turns := ts }) hbusy hhost
      exact absurd hbusy (ne_true_of_eq_false hidle)
    · exact .inl hturn
    · exact .inl hturn
    · exact .inr hturn

theorem State.recordRead_host (s : State) (off : Nat) : (s.recordRead off).host = s.host := by
  obtain ⟨d, h⟩ := s.recordRead_eq off
  rw [h]
  rfl

/-- R75: a pass that reads bit 0 = 1 leaves the loop where it is. -/
theorem State.pollOnce_host_busy (hbusy : s.status.busy = true) (rest : List BusOp) :
    (s.pollOnce rest).host = s.host := by
  have hbit : (s.readReg .status).1.getLsbD 0 = true := by
    rw [State.readReg_status_busy hbusy]
    exact (statusWord_busy ..).trans hbusy
  rw [State.pollOnce, if_pos hbit, State.recordRead_host]

/-- Settles O8: each of the three writes is dropped, and the poll reads STATUS and stays the host's next operation. -/
theorem busyWritesAreDropped : Obligations.BusyWritesAreDropped := by
  refine fun s v hbusy => ⟨fun r hr => ?_, _, step_poll s, ?_⟩
  · rw [step_writeOf, State.writeReg_dropped hbusy hr]
    rfl
  · exact State.pollOnce_host_busy (s := { s with host := .poll :: s.host }) hbusy s.host

/-! ## Reset asserted -/

/-- Settles O22: the state that reset leaves has BUSY = 0, so it accepts a command (R181). -/
theorem resetAsserted : Obligations.ResetAsserted :=
  fun s => ⟨s.assertReset, step_resetNext s, rfl, rfl, rfl, rfl, rfl, rfl, rfl, rfl, rfl, fun w =>
    have ⟨accepts, _⟩ := commandAcceptance s.assertReset w
    ⟨_, accepts rfl, rfl, rfl⟩⟩

end Sys2Proof.Machine
